-- ==== Sys2Proof/Config.lean ====
section
/-! DEFINITION. The configuration: the sizes of 00_scope R6, each a named constant that the rest of the model takes from
here, the events by which the agents reach the machine, and the open values of R7, which have no body. The parameter
`FONT` of R7 is data, the field `font` of State (log entry 4). -/

namespace Sys2Proof

/-! ## Sizes (00_scope R6) -/

/-- `MEM_SIZE`: bytes of memory. -/
@[simp] abbrev Config.memSize : Nat := 4096

/-- `FONT_BASE`: address of the first font byte. -/
@[simp] abbrev Config.fontBase : Nat := 0x000

/-- `FONT_LEN`: bytes of the font. -/
@[simp] abbrev Config.fontLen : Nat := 80

/-- `GLYPH_BYTES`: bytes of a glyph, the multiplier of Fx29. -/
@[simp] abbrev Config.glyphBytes : Nat := 5

/-- `RESERVED_TOP`: last address of the region reserved for font data. No rule gives it an effect. -/
@[simp] abbrev Config.reservedTop : Nat := 0x1FF

/-- `PROG_BASE`: load address of the ROM and reset value of `pc`. -/
@[simp] abbrev Config.progBase : Nat := 0x200

/-- `ROM_MAX`: the longest ROM that loads. -/
@[simp] abbrev Config.romMax : Nat := 3584

/-- `NUM_V`: V registers. -/
@[simp] abbrev Config.numV : Nat := 16

/-- Bits of a byte of memory and of a V register (`NUM_V`'s row). -/
@[simp] abbrev Config.byteWidth : Nat := 8

/-- `I_WIDTH`, the bits stored. -/
@[simp] abbrev Config.iWidth : Nat := 16

/-- `I_WIDTH`, the meaningful bits. -/
@[simp] abbrev Config.iBits : Nat := 12

/-- `PC_WIDTH`, also the width of a stack slot (92 D29). -/
@[simp] abbrev Config.pcWidth : Nat := 16

/-- `STACK_CAPACITY`: slots of the call stack. -/
@[simp] abbrev Config.stackCapacity : Nat := 48

/-- `TIMER_WIDTH`: bits of each timer. -/
@[simp] abbrev Config.timerWidth : Nat := 8

/-- `NUM_KEYS`: keypad entries. -/
@[simp] abbrev Config.numKeys : Nat := 16

/-- `DISP_W`: columns of the display. -/
@[simp] abbrev Config.dispW : Nat := 64

/-- `DISP_H`: rows of the display. -/
@[simp] abbrev Config.dispH : Nat := 32

/-- Pixels of the display (`DISP_W`, `DISP_H`'s row). -/
@[simp] abbrev Config.numPixels : Nat := 2048

/-- `INSTR_BYTES`: bytes of an instruction. -/
@[simp] abbrev Config.instrBytes : Nat := 2

/-- `NUM_OPCODES`: rows of the opcode table. -/
@[simp] abbrev Config.numOpcodes : Nat := 35

/-- `CPU_HZ`: nominal steps a second. No rule depends on it (70_reset_and_hazards R254). -/
@[simp] abbrev Config.cpuHz : Nat := 500

/-- `TIMER_HZ`: nominal ticks a second. No rule depends on it (70_reset_and_hazards R254). -/
@[simp] abbrev Config.timerHz : Nat := 60

/-! ## Events (00_scope R8) -/

/-- The atomic events of the machine's agents (00_scope R8). -/
inductive Machine.Event where
  | step                                          -- Core: one fetch-decode-execute (30_encoding R90)
  | timerTick                                     -- Timer (60_exceptions R225)
  | keySet (k : Fin Config.numKeys) (b : Bool)    -- Input (60_exceptions R228)
  | frameRead                                     -- Presenter: observes, changes nothing (41_display R156)
  | drawAck                                       -- Presenter (41_display R157)
  | reset (rom : List (BitVec Config.byteWidth))  -- Host (70_reset_and_hazards R240)
deriving DecidableEq, Repr, Inhabited

/-! ## Open values (00_scope R7, R9) -/

/-- The two readings of the random instruction's mask (00_scope R7, 40_alu R133). -/
inductive RndMask where
  | dest  -- the prior value of Vx
  | imm   -- the immediate kk
deriving DecidableEq, Repr, Inhabited

/-- `RND_MASK` (00_scope R7, 90_conflicts C4): left open, so every claim holds for both readings.
DESIGN CHOICE, safe (log entry 2). -/
opaque Config.rndMask : RndMask

/-- `rand8` (00_scope R7, 93 U9): the byte drawn by the `k`-th draw, any value.
DESIGN CHOICE, safe (log entry 1). -/
opaque Config.rand8 : Nat → BitVec Config.byteWidth

/-- Which of several pressed keys the `k`-th draw picks (`KEY_PICK`, 00_scope R7, 93 U7), before it is
brought into range by `pickKey`. DESIGN CHOICE, safe (log entry 3). -/
opaque Config.keyChoice : Nat → Nat

/-- The `k`-th event of an endless interleaving of the agents, any sequence of events (00_scope R9).
DESIGN CHOICE, safe (log entry 5). -/
opaque Config.eventAt : Nat → Machine.Event

end Sys2Proof
end

