-- ==== Sys2Proof/Word.lean ====
section
/-! DEFINITION. Word types of the machine (00_scope R10: every value is an unsigned integer). -/

namespace Sys2Proof

/-- A memory byte, a V register, a timer, the immediate `kk`. -/
abbrev Byte := BitVec 8

/-- The instruction word, `pc`, `I`, a stack slot, an error register. -/
abbrev Word := BitVec 16

/-- One hexadecimal digit of the instruction word (00_scope R10). -/
abbrev Nibble := BitVec 4

/-- The 12-bit address operand `nnn` (30_encoding R92). -/
abbrev Addr12 := BitVec 12

/-- A register number: every 4-bit index names a register (10_state R22, 30_encoding R94). -/
abbrev Reg := Fin 16

/-- The 2048 one-bit pixels, bit `col + row * 64` (10_state R38). -/
abbrev Pixels := BitVec Config.numPixels

end Sys2Proof
end

