-- ==== Sys2Proof/Syntax.lean ====
section
/-! DEFINITION. The instructions: one constructor per row of spec/opcode_table.json, in the table's order
(30_encoding R95). Register operands are register numbers; `kk`, `nnn` and `n` are the fields of R92. -/

namespace Sys2Proof

inductive Instr where
  | sys (nnn : Addr12)             -- 0nnn  SYS nnn       42_control R165
  | cls                            -- 00E0  CLS           41_display R150
  | ret                            -- 00EE  RET           42_control R166
  | jp (nnn : Addr12)              -- 1nnn  JP nnn        42_control R167
  | call (nnn : Addr12)            -- 2nnn  CALL nnn      42_control R168
  | seByte (x : Reg) (kk : Byte)   -- 3xkk  SE Vx, kk     42_control R170
  | sneByte (x : Reg) (kk : Byte)  -- 4xkk  SNE Vx, kk    42_control R171
  | seReg (x y : Reg)              -- 5xy0  SE Vx, Vy     42_control R172 (low nibble ignored, R97)
  | ldByte (x : Reg) (kk : Byte)   -- 6xkk  LD Vx, kk     40_alu R122
  | addByte (x : Reg) (kk : Byte)  -- 7xkk  ADD Vx, kk    40_alu R123
  | ldReg (x y : Reg)              -- 8xy0  LD Vx, Vy     40_alu R124
  | orReg (x y : Reg)              -- 8xy1  OR Vx, Vy     40_alu R125
  | andReg (x y : Reg)             -- 8xy2  AND Vx, Vy    40_alu R126
  | xorReg (x y : Reg)             -- 8xy3  XOR Vx, Vy    40_alu R127
  | addReg (x y : Reg)             -- 8xy4  ADD Vx, Vy    40_alu R128
  | subReg (x y : Reg)             -- 8xy5  SUB Vx, Vy    40_alu R129
  | shr (x y : Reg)                -- 8xy6  SHR Vx        40_alu R130 (y decoded, not used, R98)
  | subnReg (x y : Reg)            -- 8xy7  SUBN Vx, Vy   40_alu R131
  | shl (x y : Reg)                -- 8xyE  SHL Vx        40_alu R132 (y decoded, not used, R98)
  | sneReg (x y : Reg)             -- 9xy0  SNE Vx, Vy    42_control R173 (low nibble ignored, R97)
  | ldI (nnn : Addr12)             -- Annn  LD I, nnn     44_memory_index R195
  | jpV0 (nnn : Addr12)            -- Bnnn  JP V0, nnn    42_control R169
  | rnd (x : Reg) (kk : Byte)      -- Cxkk  RND Vx, kk    40_alu R133
  | drw (x y : Reg) (n : Nibble)   -- Dxyn  DRW Vx, Vy, n 41_display R151
  | skp (x : Reg)                  -- Ex9E  SKP Vx        42_control R174
  | sknp (x : Reg)                 -- ExA1  SKNP Vx       42_control R175
  | ldVxDt (x : Reg)               -- Fx07  LD Vx, DT     43_keys_timers R185
  | ldVxK (x : Reg)                -- Fx0A  LD Vx, K      43_keys_timers R186
  | ldDtVx (x : Reg)               -- Fx15  LD DT, Vx     43_keys_timers R187
  | ldStVx (x : Reg)               -- Fx18  LD ST, Vx     43_keys_timers R188
  | addI (x : Reg)                 -- Fx1E  ADD I, Vx     44_memory_index R196
  | ldF (x : Reg)                  -- Fx29  LD F, Vx      44_memory_index R197
  | ldB (x : Reg)                  -- Fx33  LD B, Vx      44_memory_index R199
  | ldMemVx (x : Reg)              -- Fx55  LD [I], Vx    44_memory_index R200
  | ldVxMem (x : Reg)              -- Fx65  LD Vx, [I]    44_memory_index R201
deriving DecidableEq, Repr

end Sys2Proof
end

