-- ==== Sys2Proof/Decode.lean ====
section
/-! DEFINITION. The decoder, total on any word and any bytes, and after it the encoder (30_encoding R91 to R101,
20_memory R61). -/

namespace Sys2Proof

/-! ## The fields of the word (30_encoding R92) -/

/-- Class nibble, `op[15:12]`. -/
def classField (op : Word) : Nibble := op.extractLsb' 12 4

/-- `x = op[11:8]`, a register number. -/
def xField (op : Word) : Reg := (op.extractLsb' 8 4).toFin

/-- `y = op[7:4]`, a register number. -/
def yField (op : Word) : Reg := (op.extractLsb' 4 4).toFin

/-- `n = op[3:0]`. -/
def nField (op : Word) : Nibble := op.extractLsb' 0 4

/-- `kk = op[7:0]`. -/
def kkField (op : Word) : Byte := op.extractLsb' 0 8

/-- `nnn = op[11:0]`. -/
def nnnField (op : Word) : Addr12 := op.extractLsb' 0 12

/-! ## Decoding -/

/-- Why a word is no instruction: the class whose secondary selector it fails (30_encoding R98, R99, R100), or
bytes that hold no whole word. Raised by the decoder; the step turns it into `DECODE_ERROR` (R101). -/
inductive Rejected where
  | class8Selector
  | classESelector
  | classFSelector
  | tooFewBytes
deriving DecidableEq, Repr

/-- What the decoder answers. -/
inductive Decoded where
  | instr (i : Instr)
  | rejected (why : Rejected)
deriving DecidableEq, Repr

/-- Class 0: the whole word selects (30_encoding R96). -/
def decodeClass0 (op : Word) : Decoded :=
  if op = 0x00E0#16 then .instr .cls
  else if op = 0x00EE#16 then .instr .ret
  else .instr (.sys (nnnField op))

/-- Class 8: the low nibble selects (30_encoding R98). -/
def decodeClass8 (op : Word) : Decoded :=
  match (nField op).toNat with
  | 0x0 => .instr (.ldReg (xField op) (yField op))
  | 0x1 => .instr (.orReg (xField op) (yField op))
  | 0x2 => .instr (.andReg (xField op) (yField op))
  | 0x3 => .instr (.xorReg (xField op) (yField op))
  | 0x4 => .instr (.addReg (xField op) (yField op))
  | 0x5 => .instr (.subReg (xField op) (yField op))
  | 0x6 => .instr (.shr (xField op) (yField op))
  | 0x7 => .instr (.subnReg (xField op) (yField op))
  | 0xE => .instr (.shl (xField op) (yField op))
  | _ => .rejected .class8Selector

/-- Class E: the low byte selects (30_encoding R99). -/
def decodeClassE (op : Word) : Decoded :=
  if kkField op = 0x9E#8 then .instr (.skp (xField op))
  else if kkField op = 0xA1#8 then .instr (.sknp (xField op))
  else .rejected .classESelector

/-- Class F: the low byte selects (30_encoding R100). -/
def decodeClassF (op : Word) : Decoded :=
  if kkField op = 0x07#8 then .instr (.ldVxDt (xField op))
  else if kkField op = 0x0A#8 then .instr (.ldVxK (xField op))
  else if kkField op = 0x15#8 then .instr (.ldDtVx (xField op))
  else if kkField op = 0x18#8 then .instr (.ldStVx (xField op))
  else if kkField op = 0x1E#8 then .instr (.addI (xField op))
  else if kkField op = 0x29#8 then .instr (.ldF (xField op))
  else if kkField op = 0x33#8 then .instr (.ldB (xField op))
  else if kkField op = 0x55#8 then .instr (.ldMemVx (xField op))
  else if kkField op = 0x65#8 then .instr (.ldVxMem (xField op))
  else .rejected .classFSelector

/-- The opcode map (30_encoding R95, R97). In classes 5 and 9 the low nibble is ignored (log entry 9). -/
def decode (op : Word) : Decoded :=
  match (classField op).toNat with
  | 0x0 => decodeClass0 op
  | 0x1 => .instr (.jp (nnnField op))
  | 0x2 => .instr (.call (nnnField op))
  | 0x3 => .instr (.seByte (xField op) (kkField op))
  | 0x4 => .instr (.sneByte (xField op) (kkField op))
  | 0x5 => .instr (.seReg (xField op) (yField op))
  | 0x6 => .instr (.ldByte (xField op) (kkField op))
  | 0x7 => .instr (.addByte (xField op) (kkField op))
  | 0x8 => decodeClass8 op
  | 0x9 => .instr (.sneReg (xField op) (yField op))
  | 0xA => .instr (.ldI (nnnField op))
  | 0xB => .instr (.jpV0 (nnnField op))
  | 0xC => .instr (.rnd (xField op) (kkField op))
  | 0xD => .instr (.drw (xField op) (yField op) (nField op))
  | 0xE => decodeClassE op
  | _ => decodeClassF op

/-- The word two consecutive bytes form, the lower address high (20_memory R61). -/
def wordOfBytes (hi lo : Byte) : Word := hi ++ lo

/-- The high byte of a word, the one at the lower address (20_memory R61). -/
def hiByte (op : Word) : Byte := op.extractLsb' 8 8

/-- The low byte of a word. -/
def loByte (op : Word) : Byte := op.extractLsb' 0 8

/-- The decoder on bytes as memory holds them, with the bytes that follow the instruction. -/
def decodeBytes (bytes : List Byte) : Decoded × List Byte :=
  match bytes with
  | hi :: lo :: rest => (decode (wordOfBytes hi lo), rest)
  | _ => (.rejected .tooFewBytes, bytes)

/-! ## Encoding (30_encoding R93, R95) -/

/-- A register number as a field of the word. -/
def regField (x : Reg) : Nibble := BitVec.ofFin x

/-- Format A: class and address. -/
def formatA (c : Nibble) (nnn : Addr12) : Word := c ++ nnn

/-- Formats K and X: class, register, byte. -/
def formatK (c : Nibble) (x : Reg) (kk : Byte) : Word := c ++ regField x ++ kk

/-- Formats R and D: class, two registers, low nibble. -/
def formatR (c : Nibble) (x y : Reg) (n : Nibble) : Word := c ++ regField x ++ regField y ++ n

/-- The canonical word of an instruction: ignored bits are 0 (30_encoding R97). -/
def encode (i : Instr) : Word :=
  match i with
  | .sys nnn => formatA 0x0#4 nnn
  | .cls => 0x00E0#16
  | .ret => 0x00EE#16
  | .jp nnn => formatA 0x1#4 nnn
  | .call nnn => formatA 0x2#4 nnn
  | .seByte x kk => formatK 0x3#4 x kk
  | .sneByte x kk => formatK 0x4#4 x kk
  | .seReg x y => formatR 0x5#4 x y 0x0#4
  | .ldByte x kk => formatK 0x6#4 x kk
  | .addByte x kk => formatK 0x7#4 x kk
  | .ldReg x y => formatR 0x8#4 x y 0x0#4
  | .orReg x y => formatR 0x8#4 x y 0x1#4
  | .andReg x y => formatR 0x8#4 x y 0x2#4
  | .xorReg x y => formatR 0x8#4 x y 0x3#4
  | .addReg x y => formatR 0x8#4 x y 0x4#4
  | .subReg x y => formatR 0x8#4 x y 0x5#4
  | .shr x y => formatR 0x8#4 x y 0x6#4
  | .subnReg x y => formatR 0x8#4 x y 0x7#4
  | .shl x y => formatR 0x8#4 x y 0xE#4
  | .sneReg x y => formatR 0x9#4 x y 0x0#4
  | .ldI nnn => formatA 0xA#4 nnn
  | .jpV0 nnn => formatA 0xB#4 nnn
  | .rnd x kk => formatK 0xC#4 x kk
  | .drw x y n => formatR 0xD#4 x y n
  | .skp x => formatK 0xE#4 x 0x9E#8
  | .sknp x => formatK 0xE#4 x 0xA1#8
  | .ldVxDt x => formatK 0xF#4 x 0x07#8
  | .ldVxK x => formatK 0xF#4 x 0x0A#8
  | .ldDtVx x => formatK 0xF#4 x 0x15#8
  | .ldStVx x => formatK 0xF#4 x 0x18#8
  | .addI x => formatK 0xF#4 x 0x1E#8
  | .ldF x => formatK 0xF#4 x 0x29#8
  | .ldB x => formatK 0xF#4 x 0x33#8
  | .ldMemVx x => formatK 0xF#4 x 0x55#8
  | .ldVxMem x => formatK 0xF#4 x 0x65#8

/-! ## The host's view of the decoder -/

/-- The word an opcode-table row's bits stand for: bits above `nbits` are 0 (30_encoding R105). -/
def tableWord (nbits w : Nat) : Word := BitVec.ofNat 16 (w % 2 ^ nbits)

/-- The instruction the decoder reads from the bytes of a table word, laid out as memory holds them. -/
def decodeTableWord (nbits w : Nat) : Option Instr :=
  match decodeBytes [hiByte (tableWord nbits w), loByte (tableWord nbits w)] with
  | (.instr i, _) => some i
  | (.rejected _, _) => none

end Sys2Proof
end

