-- ==== Sys2Proof/Machine/Font.lean ====
section
/-! DEFINITION. The table of 10_state R35, and the contents an unlisted address of memory reads as. -/

namespace Sys2Proof.Machine

/-- `FONT` (00_scope R7): the glyph bytes written at reset. -/
abbrev Font := Vector Byte Config.fontLen

/-- Glyphs 0 to 7 of the table of 10_state R35. -/
def fontLow : List Byte :=
  [0xF0#8, 0x90#8, 0x90#8, 0x90#8, 0xF0#8] ++ [0x20#8, 0x60#8, 0x20#8, 0x20#8, 0x70#8] ++
  [0xF0#8, 0x10#8, 0xF0#8, 0x80#8, 0xF0#8] ++ [0xF0#8, 0x10#8, 0xF0#8, 0x10#8, 0xF0#8] ++
  [0x90#8, 0x90#8, 0xF0#8, 0x10#8, 0x10#8] ++ [0xF0#8, 0x80#8, 0xF0#8, 0x10#8, 0xF0#8] ++
  [0xF0#8, 0x80#8, 0xF0#8, 0x90#8, 0xF0#8] ++ [0xF0#8, 0x10#8, 0x20#8, 0x40#8, 0x40#8]

/-- Glyphs 8 to F of the table of 10_state R35. -/
def fontHigh : List Byte :=
  [0xF0#8, 0x90#8, 0xF0#8, 0x90#8, 0xF0#8] ++ [0xF0#8, 0x90#8, 0xF0#8, 0x10#8, 0xF0#8] ++
  [0xF0#8, 0x90#8, 0xF0#8, 0x90#8, 0x90#8] ++ [0xE0#8, 0x90#8, 0xE0#8, 0x90#8, 0xE0#8] ++
  [0xF0#8, 0x80#8, 0x80#8, 0x80#8, 0xF0#8] ++ [0xE0#8, 0x90#8, 0x90#8, 0x90#8, 0xE0#8] ++
  [0xF0#8, 0x80#8, 0xF0#8, 0x80#8, 0xF0#8] ++ [0xF0#8, 0x80#8, 0xF0#8, 0x80#8, 0x80#8]

/-- The table of 10_state R35, the default the spec recommends for `FONT` (00_scope R7). -/
def defaultFont : Font := Vector.ofFn (fun k => (fontLow ++ fontHigh).getD k.val 0x00#8)

/-- What an address that memory does not list reads as, which is how the list stands for the bytes and no rule of the
machine: the default font at `FONT_BASE`, 0x00 elsewhere. `Reset` writes the machine's own font (log entries 4, 7). -/
def resetByte (a : Nat) : Byte :=
  if a < Config.fontBase then 0x00#8 else (fontLow ++ fontHigh).getD (a - Config.fontBase) 0x00#8

end Sys2Proof.Machine
end

