-- ==== Sys2Proof/Machine/State.lean ====
section
/-! DEFINITION. The state of the machine as plain data (10_state R20) and the state after reset (70_reset_and_hazards
R240). -/

namespace Sys2Proof.Machine

/-- Memory as the list of its bytes that differ from what an unlisted address reads as, by rising address
(canonical form: `Memory.wf`; unlisted addresses: `resetByte`). -/
abbrev Memory := List Host.Cell

/-- The architectural state, field by field the record of 10_state R20, and after it four fields of the
MODEL'S own (log entries 4, 5 and 6), over whose values every statement quantifies: the parameter `font`, which no event
changes, the counter `draws`, and `schedule` and `agents`, which say whose turn it is. -/
structure State where
  /-- Memory, addresses 0x000 to 0xFFF (R34). -/
  mem       : Memory
  /-- V0 to VF (R22). -/
  V         : Vector Byte Config.numV
  /-- Index register, 16 bits stored, always below 0x1000 (R30). -/
  I         : BitVec Config.iWidth
  /-- Program counter (R26). -/
  pc        : BitVec Config.pcWidth
  /-- Stack pointer, 0 to 47 (R31). -/
  sp        : Fin Config.stackCapacity
  /-- Call stack, 48 slots (R31). -/
  stack     : Vector (BitVec Config.pcWidth) Config.stackCapacity
  /-- Delay timer (R32). -/
  DT        : BitVec Config.timerWidth
  /-- Sound timer (R32). -/
  ST        : BitVec Config.timerWidth
  /-- Keypad, bit `k` is key `k` (R37). -/
  key       : BitVec Config.numKeys
  /-- Display buffer, bit `col + row * 64` (R38). -/
  fb        : Pixels
  /-- Draw-ready flag (R39). -/
  drawReady : Bool
  /-- The core has stopped after a fatal error (R40). -/
  halted    : Bool
  /-- Error code (R40, 60_exceptions R211). -/
  errCode   : BitVec 4
  /-- Failing word (R40). -/
  errOpcode : Word
  /-- `pc` of the failing step (R40). -/
  errPc     : Word
  /-- Offending address (R40). -/
  errAddr   : Word
  /-- Model's own: the parameter `FONT` of this machine, which `Reset` writes to memory (00_scope R7; log entry 4). -/
  font      : Font
  /-- Model's own: how many free values have been drawn (log entry 6). -/
  draws     : Nat
  /-- Model's own: the events the agents perform next, soonest first (log entry 5). -/
  schedule  : List Event
  /-- Model's own: what follows the schedule. `none`: the Core's steps alone. `some k`: the endless interleaving
  `Config.eventAt`, from its `k`-th event on (00_scope R9; log entry 5). -/
  agents    : Option Nat
deriving DecidableEq, Repr

/-- Reasons the machine stops with a fault: none. Every error of this hardware has an entry the spec describes
(60_exceptions R215), so it is taken as a next state; nobody raises a fault (log entry 11). -/
inductive Fault
deriving DecidableEq, Repr

/-- Reasons an instruction has no meaning. -/
inductive Refusal where
  /-- An arm of `exec` without a meaning; raised by such an arm alone, and there is none. Safe: the machine stops
  where the hardware goes on. -/
  | notModelled (mnemonic : String)
deriving DecidableEq, Repr

/-- What a step or an instruction answers. -/
abbrev Result := Host.Outcome State Fault Refusal

/-- The state after `Reset` with an empty ROM (70_reset_and_hazards R240, R242): memory lists nothing, so it reads as
the default font and zeros. The last four values are the model's own (log entries 4, 5 and 6). -/
def State.reset : State where
  mem       := []
  V         := Vector.replicate Config.numV 0x00#8
  I         := 0#Config.iWidth
  pc        := BitVec.ofNat Config.pcWidth Config.progBase
  sp        := 0
  stack     := Vector.replicate Config.stackCapacity (0#Config.pcWidth)
  DT        := 0#Config.timerWidth
  ST        := 0#Config.timerWidth
  key       := 0#Config.numKeys
  fb        := 0#Config.numPixels
  drawReady := false
  halted    := false
  errCode   := 0x0#4
  errOpcode := 0x0000#16
  errPc     := 0x0000#16
  errAddr   := 0x0000#16
  font      := defaultFont
  draws     := 0
  schedule  := []
  agents    := none

end Sys2Proof.Machine
end

