-- ==== Sys2Proof/Machine/Memory.lean ====
section
/-! DEFINITION. Memory as a canonical list of cells: reading and writing bytes and runs of bytes (20_memory R60 to
R64). -/

namespace Sys2Proof.Machine

/-- Every listed address is at least `lo` and below the next one and `MEM_SIZE`, and no listed byte is what an
unlisted address reads as. -/
def Memory.wfFrom (lo : Nat) (m : Memory) : Bool :=
  match m with
  | [] => true
  | (k, v) :: rest => decide (lo ≤ k) && decide (k < Config.memSize) && v != resetByte k && Memory.wfFrom (k + 1) rest

/-- The canonical form. -/
def Memory.wf (m : Memory) : Bool := Memory.wfFrom 0 m

/-- The byte at an address. -/
def Memory.read (m : Memory) (a : Nat) : Byte :=
  match m with
  | [] => resetByte a
  | (k, v) :: rest => if a = k then v else Memory.read rest a

/-- Lists a byte, in its place by address. -/
def Memory.insert (m : Memory) (a : Nat) (b : Byte) : Memory :=
  match m with
  | [] => [(a, b)]
  | (k, v) :: rest =>
    if a < k then (a, b) :: (k, v) :: rest
    else if a = k then (a, b) :: rest
    else (k, v) :: Memory.insert rest a b

/-- Unlists an address, wherever it stands. -/
def Memory.erase (m : Memory) (a : Nat) : Memory :=
  match m with
  | [] => []
  | (k, v) :: rest => if a = k then Memory.erase rest a else (k, v) :: Memory.erase rest a

/-- Writes a byte and keeps the canonical form. An address above 0xFFF does not exist (20_memory R70) and no access
reaches one (R64); a write there would change nothing. -/
def Memory.write (m : Memory) (a : Nat) (b : Byte) : Memory :=
  if a < Config.memSize then
    if b = resetByte a then Memory.erase m a else Memory.insert m a b
  else m

/-- Writes consecutive bytes, ascending (20_memory R62). -/
def Memory.writeList (m : Memory) (a : Nat) (bytes : List Byte) : Memory :=
  match bytes with
  | [] => m
  | b :: rest => Memory.writeList (Memory.write m a b) (a + 1) rest

/-- Reads `len` consecutive bytes, ascending (20_memory R62). -/
def Memory.readList (m : Memory) (a len : Nat) : List Byte :=
  match len with
  | 0 => []
  | k + 1 => Memory.read m a :: Memory.readList m (a + 1) k

/-- Memory as reset leaves it, with the bytes placed from address `a` up (70_reset_and_hazards R242). -/
def Memory.ofImage (a : Nat) (bytes : List Byte) : Memory :=
  match bytes with
  | [] => []
  | b :: rest =>
    if b = resetByte a then Memory.ofImage (a + 1) rest else (a, b) :: Memory.ofImage (a + 1) rest

end Sys2Proof.Machine
end

