-- ==== Sys2Proof/Machine/Ops.lean ====
section
/-! DEFINITION. The named operations over registers, stack, memory, display and error registers (00_scope R11), the
error entry `raise` (60_exceptions R215) and the fetch (20_memory R61, R66, R67). -/

namespace Sys2Proof.Machine

/-! ## V registers, index register, timers, program counter -/

/-- `V[x]` (00_scope R11). -/
def readV (s : State) (x : Reg) : Byte := s.V[x]

/-- `V[x] <- b` (00_scope R11). No register is hardwired (10_state R22). -/
def writeV (x : Reg) (b : Byte) (s : State) : State := { s with V := s.V.set x b }

/-- `I <- w`: every write stores the value cut to 12 bits, `w mod 4096` (10_state R30). -/
def writeI (w : Word) (s : State) : State :=
  { s with I := BitVec.ofNat Config.iWidth (w.toNat % 2 ^ Config.iBits) }

/-- `DT <- b`. -/
def writeDT (b : Byte) (s : State) : State := { s with DT := b }

/-- `ST <- b`. -/
def writeST (b : Byte) (s : State) : State := { s with ST := b }

/-- `pc <- target`. -/
def jumpTo (target : Word) (s : State) : State := { s with pc := target }

/-- `pc + 2`, the address of the instruction after this one (`INSTR_BYTES`, 10_state R27). -/
def pcAfter (s : State) : Word := s.pc + BitVec.ofNat Config.pcWidth Config.instrBytes

/-- `pc + 4`, the address of the instruction after that (42_control R164). -/
def pcSkipped (s : State) : Word := s.pc + BitVec.ofNat Config.pcWidth (2 * Config.instrBytes)

/-- `pc <- pc + 2` (10_state R27). -/
def advance (s : State) : State := jumpTo (pcAfter s) s

/-- `pc <- pc + 4` if the condition holds, else `pc + 2` (42_control R164). -/
def skipIf (cond : Bool) (s : State) : State := jumpTo (if cond then pcSkipped s else pcAfter s) s

/-! ## Call stack (10_state R31) -/

/-- `sp <- sp + 1 ; stack[sp] <- ret`, or `none` where `sp` would leave 0 to 47. -/
def pushReturn (ret : Word) (s : State) : Option State :=
  if h : s.sp.val + 1 < Config.stackCapacity then
    some { s with sp := ⟨s.sp.val + 1, h⟩, stack := s.stack.set (s.sp.val + 1) ret h }
  else none

/-- The popped address and the state with `sp <- sp - 1`, or `none` where `sp` is 0. The slot is not erased. -/
def popReturn (s : State) : Option (Word × State) :=
  if s.sp.val = 0 then none
  else some (s.stack[s.sp], { s with sp := ⟨s.sp.val - 1, by omega⟩ })

/-! ## Memory through `I` (44_memory_index R198) -/

/-- `mem[a]`. -/
def readByte (s : State) (a : Nat) : Byte := Memory.read s.mem a

/-- A run of `len` bytes from `I` lies in memory; a run of no bytes always does (20_memory R64). -/
def inRange (s : State) (len : Nat) : Bool := len = 0 || s.I.toNat + len ≤ Config.memSize

/-- `MemRead` of the `len` bytes from `I`, or `none` where one would lie above 0xFFF. -/
def loadBytes (s : State) (len : Nat) : Option (List Byte) :=
  if inRange s len then some (Memory.readList s.mem s.I.toNat len) else none

/-- `MemWrite` of consecutive bytes from `I`, or `none`, with nothing written, where one would lie above 0xFFF. -/
def storeBytes (bytes : List Byte) (s : State) : Option State :=
  if inRange s bytes.length then some { s with mem := Memory.writeList s.mem s.I.toNat bytes } else none

/-! ## Display (41_display R150, R151) -/

/-- All pixel writes of one instruction with its write of `draw_ready`: one transaction (41_display R156). -/
def showPixels (fb : Pixels) (s : State) : State := { s with fb := fb, drawReady := true }

/-! ## Free values -/

/-- `rand8()`: the byte this step may consume (00_scope R11; log entry 1). -/
def drawnByte (s : State) : Byte := Config.rand8 s.draws

/-- The choice this step may consume (log entry 3). -/
def drawnChoice (s : State) : Nat := Config.keyChoice s.draws

/-- One free value is consumed (log entry 6). -/
def nextDraw (s : State) : State := { s with draws := s.draws + 1 }

/-! ## Fatal errors (60_exceptions R211, R212, R215) -/

/-- The error causes of 60_exceptions R211. -/
inductive ErrorKind where
  | loadError
  | decodeError
  | stackOverflow
  | stackUnderflow
  | memoryBounds
  | fetchBounds
  | fetchMisaligned
  | keyIndexBounds
deriving DecidableEq, Repr

/-- `err_code` of a cause (60_exceptions R211). -/
def errorCode (e : ErrorKind) : BitVec 4 :=
  match e with
  | .loadError => 1#4
  | .decodeError => 2#4
  | .stackOverflow => 3#4
  | .stackUnderflow => 4#4
  | .memoryBounds => 5#4
  | .fetchBounds => 6#4
  | .fetchMisaligned => 7#4
  | .keyIndexBounds => 8#4

/-- `raise E(info)`: the error entry. Nothing but the five error registers changes (60_exceptions R215), `err_pc` is
the failing step's `pc` (R212). There is no return from it but `Reset` (R217). -/
def raise (e : ErrorKind) (opcode addr : Word) (s : State) : State :=
  { s with halted := true, errCode := errorCode e, errOpcode := opcode, errPc := s.pc, errAddr := addr }

/-- The first address past memory, which `MEMORY_BOUNDS` records (20_memory R64). -/
def firstAbsent : Word := BitVec.ofNat Config.pcWidth Config.memSize

/-- `raise MEMORY_BOUNDS` by instruction `i`; its word has no ignored bits, so it is the encoder's (log entry 12). -/
def raiseMemoryBounds (i : Instr) (s : State) : State := raise .memoryBounds (encode i) firstAbsent s

/-! ## Fetch (20_memory R61, R66, R67) -/

/-- What fetching at `pc` answers. -/
inductive Fetched where
  | word (op : Word)
  | bounds (addr : Word)
  | misaligned
deriving DecidableEq, Repr

/-- Bounds before alignment (60_exceptions R214), then two bytes, big-endian. The first address out of range is `pc`
itself, or the second byte's (20_memory R66). -/
def fetch (s : State) : Fetched :=
  if s.pc.toNat + Config.instrBytes > Config.memSize then
    .bounds (if s.pc.toNat ≥ Config.memSize then s.pc else firstAbsent)
  else if s.pc.getLsbD 0 then .misaligned
  else .word (wordOfBytes (readByte s s.pc.toNat) (readByte s (s.pc.toNat + 1)))

/-- A `pc` at which a word can be fetched. -/
def fetchable (pc : Word) : Bool := pc.toNat + Config.instrBytes ≤ Config.memSize && !pc.getLsbD 0

/-- The word stored where the next step fetches, with what that step needs to run it: the core not halted, its
own steps next, `pc` fetchable (log entry 15). -/
def placeWord (op : Word) (s : State) : State :=
  let pc := if fetchable s.pc then s.pc else BitVec.ofNat Config.pcWidth Config.progBase
  { s with
    mem := Memory.writeList s.mem pc.toNat [hiByte op, loByte op], pc := pc, halted := false, schedule := [],
    agents := none }

end Sys2Proof.Machine
end

