-- ==== Sys2Proof/Machine/Operands.lean ====
section
/-! DEFINITION. The operand forms (30_encoding R94): register, immediate, address, implicit V0, key index, register
run, font address, BCD digits, sprite pixels, pressed key. -/

namespace Sys2Proof.Machine

/-- The flag register, VF (10_state R24). -/
def flagReg : Reg := 15

/-- `zext_16(nnn)` (30_encoding R94). -/
def addrOperand (nnn : Addr12) : Word := nnn.setWidth 16

/-- `zext_16(V[x])`. -/
def wordOfReg (s : State) (x : Reg) : Word := (readV s x).setWidth 16

/-- `nnn + V0`, not reduced (42_control R169). -/
def indexedTarget (s : State) (nnn : Addr12) : Word := addrOperand nnn + wordOfReg s 0

/-- `V[x]` as a key index, or `none` above 15 (42_control R174). -/
def keyOperand (s : State) (x : Reg) : Option Nat :=
  if (readV s x).toNat < Config.numKeys then some (readV s x).toNat else none

/-- `key[k] = 1` (10_state R37). -/
def keyDown (s : State) (k : Nat) : Bool := s.key.getLsbD k

/-- The indices of the keys that are down, ascending (43_keys_timers R186). -/
def pressedKeys (s : State) : List Nat := (List.range Config.numKeys).filter (keyDown s)

/-- `KEY_PICK`: one of the pressed keys, any of them as the choice varies; none if no key is down (43_keys_timers
R186, 93 U7; log entry 3). -/
def pickKey (choice : Nat) (pressed : List Nat) : Option Nat :=
  match pressed with
  | [] => none
  | [k] => some k
  | k :: l :: rest => some ((k :: l :: rest).getD (choice % (k :: l :: rest).length) k)

/-- V0 to Vx in ascending order (44_memory_index R200). -/
def registerRun (s : State) (x : Reg) : List Byte := s.V.toList.take (x.val + 1)

/-- V0 upward replaced by the bytes, in ascending order (44_memory_index R201). -/
def writeRun (k : Nat) (bytes : List Byte) (s : State) : State :=
  match bytes with
  | [] => s
  | b :: rest => if h : k < Config.numV then writeRun (k + 1) rest (writeV ⟨k, h⟩ b s) else s

/-- `V[x] * 5`, the address of a glyph (44_memory_index R197). -/
def glyphAddress (s : State) (x : Reg) : Word := BitVec.ofNat 16 ((readV s x).toNat * Config.glyphBytes)

/-- Hundreds, tens and ones of a byte (44_memory_index R199). -/
def bcdDigits (v : Byte) : List Byte :=
  [BitVec.ofNat 8 (v.toNat / 100), BitVec.ofNat 8 (v.toNat / 10 % 10), BitVec.ofNat 8 (v.toNat % 10)]

/-- The random instruction's result (40_alu R133): the draw masked by the prior Vx or by kk. -/
def maskedDraw (mask : RndMask) (r vx kk : Byte) : Byte :=
  match mask with
  | .dest => r &&& vx
  | .imm => r &&& kk

/-- Buffer index of the pixel under sprite column `c` of sprite row `r`, each axis wrapped on its own (41_display
R152). -/
def pixelIndex (vx vy : Byte) (r c : Nat) : Nat :=
  (vx.toNat + c) % Config.dispW + (vy.toNat + r) % Config.dispH * Config.dispW

/-- The pixels under the set bits of one sprite byte, bit 7 leftmost (41_display R151). -/
def rowPixels (vx vy : Byte) (r : Nat) (b : Byte) : List Nat :=
  ((List.range 8).filter (fun c => b.getLsbD (7 - c))).map (pixelIndex vx vy r)

/-- The pixels under the set bits of the sprite rows from row `r` down. -/
def spritePixels (vx vy : Byte) (r : Nat) (rows : List Byte) : List Nat :=
  match rows with
  | [] => []
  | b :: rest => rowPixels vx vy r b ++ spritePixels vx vy (r + 1) rest

/-- `fb[i] <- fb[i] ^ 1`. -/
def togglePixel (i : Nat) (fb : Pixels) : Pixels := fb ^^^ BitVec.twoPow Config.numPixels i

/-- The pixels XORed one after another, with `coll` set by each that was 1 (41_display R151). -/
def xorPixels (pixels : List Nat) (fb : Pixels) (coll : Bool) : Pixels × Bool :=
  match pixels with
  | [] => (fb, coll)
  | i :: rest => xorPixels rest (togglePixel i fb) (coll || fb.getLsbD i)

end Sys2Proof.Machine
end

