-- ==== Sys2Proof/Machine/Flags.lean ====
section
/-! DEFINITION. The flag computations (10_state R24) and the order in which a flag and a result are written (40_alu
R120). -/

namespace Sys2Proof.Machine

/-- A flag as the byte VF receives. -/
def flagByte (b : Bool) : Byte := if b then 1#8 else 0#8

/-- Carry of 8xy4: the widened sum exceeds 255 (40_alu R128). -/
def carryFlag (a b : Byte) : Bool := a.toNat + b.toNat > 255

/-- Not-borrow of 8xy5 and 8xy7, strict: minuend above subtrahend (40_alu R129, R131). -/
def greaterFlag (a b : Byte) : Bool := a.toNat > b.toNat

/-- Bit shifted out by 8xy6 (40_alu R130). -/
def lowBitFlag (a : Byte) : Bool := a.getLsbD 0

/-- Bit shifted out by 8xyE (40_alu R132). -/
def highBitFlag (a : Byte) : Bool := a.getLsbD 7

/-- `V[0xF] <- flag` (10_state R24). -/
def writeFlag (flag : Bool) (s : State) : State := writeV flagReg (flagByte flag) s

/-- The flag first and the result second, so that with x = 0xF the result stays (40_alu R120; log entry 8). -/
def writeFlagThenResult (flag : Bool) (x : Reg) (result : Byte) (s : State) : State :=
  writeV x result (writeFlag flag s)

end Sys2Proof.Machine
end

