-- ==== Sys2Proof/Machine/Alu.lean ====
section
/-! DEFINITION. Register load, arithmetic, logic, shift and random instructions (40_alu.md). None raises an error. -/

namespace Sys2Proof.Machine

/-- 6xkk `LD Vx, kk` (R122). -/
def execLdByte (x : Reg) (kk : Byte) (s : State) : Result := .next (advance (writeV x kk s))

/-- 7xkk `ADD Vx, kk` (R123): no flag. -/
def execAddByte (x : Reg) (kk : Byte) (s : State) : Result := .next (advance (writeV x (readV s x + kk) s))

/-- 8xy0 `LD Vx, Vy` (R124). -/
def execLdReg (x y : Reg) (s : State) : Result := .next (advance (writeV x (readV s y) s))

/-- 8xy1 `OR Vx, Vy` (R125): no flag. -/
def execOrReg (x y : Reg) (s : State) : Result := .next (advance (writeV x (readV s x ||| readV s y) s))

/-- 8xy2 `AND Vx, Vy` (R126): no flag. -/
def execAndReg (x y : Reg) (s : State) : Result := .next (advance (writeV x (readV s x &&& readV s y) s))

/-- 8xy3 `XOR Vx, Vy` (R127): no flag. -/
def execXorReg (x y : Reg) (s : State) : Result := .next (advance (writeV x (readV s x ^^^ readV s y) s))

/-- 8xy4 `ADD Vx, Vy` (R128). -/
def execAddReg (x y : Reg) (s : State) : Result :=
  .next (advance (writeFlagThenResult (carryFlag (readV s x) (readV s y)) x (readV s x + readV s y) s))

/-- 8xy5 `SUB Vx, Vy` (R129). -/
def execSubReg (x y : Reg) (s : State) : Result :=
  .next (advance (writeFlagThenResult (greaterFlag (readV s x) (readV s y)) x (readV s x - readV s y) s))

/-- 8xy6 `SHR Vx` (R130): the operand is Vx, the y field is not used. -/
def execShr (x _y : Reg) (s : State) : Result :=
  .next (advance (writeFlagThenResult (lowBitFlag (readV s x)) x (readV s x >>> 1) s))

/-- 8xy7 `SUBN Vx, Vy` (R131). -/
def execSubnReg (x y : Reg) (s : State) : Result :=
  .next (advance (writeFlagThenResult (greaterFlag (readV s y) (readV s x)) x (readV s y - readV s x) s))

/-- 8xyE `SHL Vx` (R132): the operand is Vx, the y field is not used. -/
def execShl (x _y : Reg) (s : State) : Result :=
  .next (advance (writeFlagThenResult (highBitFlag (readV s x)) x (readV s x <<< 1) s))

/-- Cxkk `RND Vx, kk` (R133): the draw first, the mask second. -/
def execRnd (x : Reg) (kk : Byte) (s : State) : Result :=
  .next (advance (writeV x (maskedDraw Config.rndMask (drawnByte s) (readV s x) kk) (nextDraw s)))

end Sys2Proof.Machine
end

