-- ==== Sys2Proof/Machine/Control.lean ====
section
/-! DEFINITION. Control transfer: jumps, call and return, skips (42_control.md). No jump checks its target (R164). -/

namespace Sys2Proof.Machine

/-- 0nnn `SYS nnn` (R165): its effect in this hardware is to raise `DECODE_ERROR`. -/
def execSys (nnn : Addr12) (s : State) : Result := .next (raise .decodeError (encode (.sys nnn)) 0x0000#16 s)

/-- 00EE `RET` (R166). -/
def execRet (s : State) : Result :=
  match popReturn s with
  | none => .next (raise .stackUnderflow (encode .ret) 0x0000#16 s)
  | some (target, popped) => .next (jumpTo target popped)

/-- 1nnn `JP nnn` (R167). -/
def execJp (nnn : Addr12) (s : State) : Result := .next (jumpTo (addrOperand nnn) s)

/-- 2nnn `CALL nnn` (R168): the pushed value is `pc + 2`. -/
def execCall (nnn : Addr12) (s : State) : Result :=
  match pushReturn (pcAfter s) s with
  | none => .next (raise .stackOverflow (encode (.call nnn)) 0x0000#16 s)
  | some pushed => .next (jumpTo (addrOperand nnn) pushed)

/-- Bnnn `JP V0, nnn` (R169). -/
def execJpV0 (nnn : Addr12) (s : State) : Result := .next (jumpTo (indexedTarget s nnn) s)

/-- 3xkk `SE Vx, kk` (R170). -/
def execSeByte (x : Reg) (kk : Byte) (s : State) : Result := .next (skipIf (readV s x == kk) s)

/-- 4xkk `SNE Vx, kk` (R171). -/
def execSneByte (x : Reg) (kk : Byte) (s : State) : Result := .next (skipIf (readV s x != kk) s)

/-- 5xy0 `SE Vx, Vy` (R172). -/
def execSeReg (x y : Reg) (s : State) : Result := .next (skipIf (readV s x == readV s y) s)

/-- 9xy0 `SNE Vx, Vy` (R173). -/
def execSneReg (x y : Reg) (s : State) : Result := .next (skipIf (readV s x != readV s y) s)

/-- `raise KEY_INDEX_BOUNDS(V[x])` by instruction `i` (R174, 60_exceptions R212). -/
def raiseKeyIndex (i : Instr) (x : Reg) (s : State) : State :=
  raise .keyIndexBounds (encode i) (wordOfReg s x) s

/-- Ex9E `SKP Vx` (R174). -/
def execSkp (x : Reg) (s : State) : Result :=
  match keyOperand s x with
  | none => .next (raiseKeyIndex (.skp x) x s)
  | some k => .next (skipIf (keyDown s k) s)

/-- ExA1 `SKNP Vx` (R175). -/
def execSknp (x : Reg) (s : State) : Result :=
  match keyOperand s x with
  | none => .next (raiseKeyIndex (.sknp x) x s)
  | some k => .next (skipIf (!keyDown s k) s)

end Sys2Proof.Machine
end

