-- ==== Sys2Proof/Machine/Display.lean ====
section
/-! DEFINITION. Display instructions (41_display.md). -/

namespace Sys2Proof.Machine

/-- 00E0 `CLS` (R150). -/
def execCls (s : State) : Result := .next (advance (showPixels (0#Config.numPixels) s))

/-- The sprite rows XORed into the display at column V[x] and row V[y], with the collision (R151). -/
def drawSprite (x y : Reg) (rows : List Byte) (s : State) : Pixels × Bool :=
  xorPixels (spritePixels (readV s x) (readV s y) 0 rows) s.fb false

/-- Dxyn `DRW Vx, Vy, n` (R151 to R155). -/
def execDrw (x y : Reg) (n : Nibble) (s : State) : Result :=
  match loadBytes s n.toNat with
  | none => .next (raiseMemoryBounds (.drw x y n) s)
  | some rows =>
    .next (advance (showPixels (drawSprite x y rows s).1 (writeFlag (drawSprite x y rows s).2 s)))

end Sys2Proof.Machine
end

