-- ==== Sys2Proof/Machine/KeysTimers.lean ====
section
/-! DEFINITION. Key wait and timer instructions (43_keys_timers.md). None raises an error. -/

namespace Sys2Proof.Machine

/-- Fx07 `LD Vx, DT` (R185). -/
def execLdVxDt (x : Reg) (s : State) : Result := .next (advance (writeV x s.DT s))

/-- Fx0A `LD Vx, K` (R186): with no key down nothing changes and `pc` stays; else a pressed key's index. -/
def execLdVxK (x : Reg) (s : State) : Result :=
  match pickKey (drawnChoice s) (pressedKeys s) with
  | none => .next s
  | some k => .next (advance (writeV x (BitVec.ofNat 8 k) (nextDraw s)))

/-- Fx15 `LD DT, Vx` (R187). -/
def execLdDtVx (x : Reg) (s : State) : Result := .next (advance (writeDT (readV s x) s))

/-- Fx18 `LD ST, Vx` (R188). -/
def execLdStVx (x : Reg) (s : State) : Result := .next (advance (writeST (readV s x) s))

end Sys2Proof.Machine
end

