-- ==== Sys2Proof/Machine/MemoryIndex.lean ====
section
/-! DEFINITION. Index register and memory instructions (44_memory_index.md). The memory instructions leave `I`
unchanged (R198). -/

namespace Sys2Proof.Machine

/-- Annn `LD I, nnn` (R195). -/
def execLdI (nnn : Addr12) (s : State) : Result := .next (advance (writeI (addrOperand nnn) s))

/-- Fx1E `ADD I, Vx` (R196): mod 4096 by `writeI`, no flag (log entry 10). -/
def execAddI (x : Reg) (s : State) : Result := .next (advance (writeI (s.I + wordOfReg s x) s))

/-- Fx29 `LD F, Vx` (R197). -/
def execLdF (x : Reg) (s : State) : Result := .next (advance (writeI (glyphAddress s x) s))

/-- Fx33 `LD B, Vx` (R199). -/
def execLdB (x : Reg) (s : State) : Result :=
  match storeBytes (bcdDigits (readV s x)) s with
  | none => .next (raiseMemoryBounds (.ldB x) s)
  | some stored => .next (advance stored)

/-- Fx55 `LD [I], Vx` (R200). -/
def execLdMemVx (x : Reg) (s : State) : Result :=
  match storeBytes (registerRun s x) s with
  | none => .next (raiseMemoryBounds (.ldMemVx x) s)
  | some stored => .next (advance stored)

/-- Fx65 `LD Vx, [I]` (R201). -/
def execLdVxMem (x : Reg) (s : State) : Result :=
  match loadBytes s (x.val + 1) with
  | none => .next (raiseMemoryBounds (.ldVxMem x) s)
  | some bytes => .next (advance (writeRun 0 bytes s))

end Sys2Proof.Machine
end

