-- ==== Sys2Proof/Machine/Events.lean ====
section
/-! DEFINITION. The events of the agents other than the Core: what the Timer, Input, Presenter and Host do and see
(00_scope R8, 60_exceptions R231). -/

namespace Sys2Proof.Machine

/-- A counter moves toward zero and stays there (60_exceptions R225). -/
def countDown (b : Byte) : Byte := if b = 0#8 then 0#8 else b - 1

/-- `TimerTick` (60_exceptions R225): both timers in one event, nothing while halted. -/
def timerTick (s : State) : State :=
  if s.halted then s else { s with DT := countDown s.DT, ST := countDown s.ST }

/-- `KeySet(k, b)` (60_exceptions R228), also while halted (R216). -/
def keySet (k : Fin Config.numKeys) (b : Bool) (s : State) : State :=
  { s with
    key := if b then s.key ||| BitVec.twoPow Config.numKeys k.val
      else s.key &&& ~~~(BitVec.twoPow Config.numKeys k.val) }

/-- What `FrameRead` returns: the 2048 pixels and `draw_ready` (41_display R156). The event changes no state. -/
def frameRead (s : State) : Pixels × Bool := (s.fb, s.drawReady)

/-- `DrawAck` (41_display R157). -/
def drawAck (s : State) : State := { s with drawReady := false }

/-- What the Host reads at any time: `halted` and the error registers (60_exceptions R231). -/
def hostRead (s : State) : Bool × BitVec 4 × Word × Word × Word :=
  (s.halted, s.errCode, s.errOpcode, s.errPc, s.errAddr)

/-- Every architectural field at its reset value, with `FONT` at `FONT_BASE` and the ROM at `PROG_BASE`; the model's own
fields stay (70_reset_and_hazards R240, R242, log entries 4, 5 and 6). -/
def initialise (rom : List Byte) (s : State) : State :=
  { State.reset with
    mem := Memory.writeList (Memory.ofImage Config.progBase rom) Config.fontBase s.font.toList,
    font := s.font, draws := s.draws, schedule := s.schedule, agents := s.agents }

/-- `Reset(rom)` (70_reset_and_hazards R240, R242, R243): a ROM above 3584 bytes leaves `LOAD_ERROR` and no ROM byte. -/
def resetWith (rom : List Byte) (s : State) : State :=
  if rom.length > Config.romMax then
    { initialise [] s with halted := true, errCode := errorCode .loadError }
  else initialise rom s

end Sys2Proof.Machine
end

