-- ==== Sys2Proof/Machine/Cycle.lean ====
section
/-! DEFINITION. The Core's instruction step (30_encoding R90) and the performance of the next event (00_scope
R8, R9). -/

namespace Sys2Proof.Machine

/-- `Step`: halted, fetch, decode, execute, in the order of 60_exceptions R214. -/
def coreStep (s : State) : Result :=
  if s.halted then .next s
  else
    match fetch s with
    | .bounds addr => .next (raise .fetchBounds 0x0000#16 addr s)
    | .misaligned => .next (raise .fetchMisaligned 0x0000#16 s.pc s)
    | .word op =>
      match decode op with
      | .rejected _ => .next (raise .decodeError op 0x0000#16 s)
      | .instr i => exec i s

/-- One atomic event (00_scope R8). -/
def perform (e : Event) (s : State) : Result :=
  match e with
  | .step => coreStep s
  | .timerTick => .next (timerTick s)
  | .keySet k b => .next (keySet k b s)
  | .frameRead => .next s
  | .drawAck => .next (drawAck s)
  | .reset rom => .next (resetWith rom s)

/-- The next event and the state it is performed on: the head of the schedule, and after its end the Core's step or the
next event of the endless interleaving. What says whose turn it is has been consumed (00_scope R9; log entry 5). -/
def upcoming (s : State) : Event × State :=
  match s.schedule with
  | e :: rest => (e, { s with schedule := rest })
  | [] =>
    match s.agents with
    | none => (.step, s)
    | some k => (Config.eventAt k, { s with agents := some (k + 1) })

/-- The next event, performed. -/
def nextEvent (s : State) : Result := perform (upcoming s).1 (upcoming s).2

end Sys2Proof.Machine
end

