-- ==== Sys2Proof/Machine/Step.lean ====
section
/-! DEFINITION. One step of the machine: the next event. -/

namespace Sys2Proof.Machine

/-- One step: the next atomic event (00_scope R8, R9). -/
def step (s : State) : Host.Outcome State Fault Refusal := nextEvent s

/-- `s` with an opcode-table word stored where the next step fetches, and the Core's steps next (log entry 15). -/
def State.withFetchWord (s : State) (nbits w : Nat) : State := placeWord (tableWord nbits w) s

end Sys2Proof.Machine
end

