-- ==== Sys2Proof/Safety.lean ====
section
/-! DEFINITION. The terms claims use: a safe run, the parts of the state and what leaves them alone, the state an
error entry leaves, whose turn it is, and the machine's invariant. -/

namespace Sys2Proof.Machine

/-- The core has not stopped. A halted state is never a successful end of a run (60_exceptions R216). -/
def Running (s : State) : Prop := s.halted = false

/-- A step or an instruction that completes with the core still running. -/
def CompletesSafely (r : Result) : Prop := ∃ t, r = .next t ∧ Running t

/-- The parts of the state: the sixteen of 10_state R20 and the model's own four. -/
inductive Part where
  | mem | V | I | pc | sp | stack | DT | ST | key | fb | drawReady
  | halted | errCode | errOpcode | errPc | errAddr | font | draws | schedule | agents
deriving DecidableEq, Repr

/-- Two states agree in a part; memory through the read of every byte, V through the read of every register. -/
def SameIn (p : Part) (s t : State) : Prop :=
  match p with
  | .mem => ∀ a, readByte t a = readByte s a
  | .V => ∀ r, readV t r = readV s r
  | .I => t.I = s.I
  | .pc => t.pc = s.pc
  | .sp => t.sp = s.sp
  | .stack => ∀ k : Fin 48, t.stack[k] = s.stack[k]
  | .DT => t.DT = s.DT
  | .ST => t.ST = s.ST
  | .key => t.key = s.key
  | .fb => t.fb = s.fb
  | .drawReady => t.drawReady = s.drawReady
  | .halted => t.halted = s.halted
  | .errCode => t.errCode = s.errCode
  | .errOpcode => t.errOpcode = s.errOpcode
  | .errPc => t.errPc = s.errPc
  | .errAddr => t.errAddr = s.errAddr
  | .font => t.font = s.font
  | .draws => t.draws = s.draws
  | .schedule => t.schedule = s.schedule
  | .agents => t.agents = s.agents

/-- The frame: every part not named is as before. -/
def OnlyChanges (parts : List Part) (s t : State) : Prop := ∀ p, p ∉ parts → SameIn p s t

/-- Every V register not named is as before. -/
def OtherRegisters (regs : List Reg) (s t : State) : Prop := ∀ r, r ∉ regs → readV t r = readV s r

/-- The error registers (10_state R40). -/
def errorParts : List Part := [.halted, .errCode, .errOpcode, .errPc, .errAddr]

/-- `t` is what the error entry leaves of `s` (60_exceptions R212, R215): the code, the word, the failing `pc` and the
address recorded, the core halted, and nothing else changed. -/
def Raised (code : BitVec 4) (opcode addr : Word) (s t : State) : Prop :=
  t.halted = true ∧ t.errCode = code ∧ t.errOpcode = opcode ∧ t.errPc = s.pc ∧ t.errAddr = addr ∧
    OnlyChanges errorParts s t

/-- The next event of `s` is `e`, performed on `s0`, which is `s` with what said so consumed (`upcoming`). -/
def EventMoves (e : Event) (s s0 : State) : Prop := upcoming s = (e, s0)

/-- The next event of `s` is the Core's step, performed on `s0`. -/
def CoreMoves (s s0 : State) : Prop := EventMoves .step s s0

/-- Fairness, a premise a claim about an endless run may take (43_keys_timers R189, 92 D2): from the `k`-th event of the
endless interleaving on, the Core's step and the Timer's tick come again and again. -/
def Fair (k : Nat) : Prop :=
  ∀ e ∈ [Event.step, Event.timerTick], ∀ n ≥ k, ∃ m ≥ n, Config.eventAt m = e

/-- A pixel lies under a set bit of the sprite of `n` rows at `I` drawn at column `vx`, row `vy` (41_display R151 to
R153). -/
def Covered (s : State) (vx vy : Byte) (n col row : Nat) : Prop :=
  ∃ r c, r < n ∧ c < 8 ∧ (readByte s (s.I.toNat + r)).getLsbD (7 - c) = true ∧
    col = (vx.toNat + c) % 64 ∧ row = (vy.toNat + r) % 32

/-- `fb[i]` at a column and a row (00_scope R11). -/
def pixelAt (s : State) (col row : Nat) : Bool := s.fb.getLsbD (col + row * 64)

/-- Every piece of state but memory, the error registers and the model's own four is as `Reset` leaves it
(70_reset_and_hazards R240). -/
def ResetRegisters (t : State) : Prop :=
  (∀ r, readV t r = 0x00#8) ∧ t.I = 0x0000#16 ∧ t.pc = 0x0200#16 ∧ t.sp.val = 0 ∧
    (∀ k : Fin 48, t.stack[k] = 0x0000#16) ∧ t.DT = 0x00#8 ∧ t.ST = 0x00#8 ∧
    (∀ k, k < 16 → keyDown t k = false) ∧ (∀ col row, col < 64 → row < 32 → pixelAt t col row = false) ∧
    t.drawReady = false

/-- The error registers record nothing and the core runs (70_reset_and_hazards R240). -/
def NoError (t : State) : Prop :=
  t.halted = false ∧ t.errCode = 0x0#4 ∧ t.errOpcode = 0x0000#16 ∧ t.errPc = 0x0000#16 ∧ t.errAddr = 0x0000#16

/-- How `pc` changes where the instruction completes (10_state R27); SYS never completes. -/
def NextPc (i : Instr) (s t : State) : Prop :=
  match i with
  | .sys _ => False
  | .jp nnn | .call nnn => t.pc.toNat = nnn.toNat
  | .jpV0 nnn => t.pc.toNat = nnn.toNat + (readV s 0).toNat
  | .ret => t.pc = s.stack[s.sp]
  | .seByte x kk => t.pc = if readV s x = kk then s.pc + 4 else s.pc + 2
  | .sneByte x kk => t.pc = if readV s x ≠ kk then s.pc + 4 else s.pc + 2
  | .seReg x y => t.pc = if readV s x = readV s y then s.pc + 4 else s.pc + 2
  | .sneReg x y => t.pc = if readV s x ≠ readV s y then s.pc + 4 else s.pc + 2
  | .skp x => t.pc = if keyDown s (readV s x).toNat = true then s.pc + 4 else s.pc + 2
  | .sknp x => t.pc = if keyDown s (readV s x).toNat = false then s.pc + 4 else s.pc + 2
  | .ldVxK _ => ((∀ k, k < 16 → keyDown s k = false) → t.pc = s.pc) ∧
      ((∃ k, k < 16 ∧ keyDown s k = true) → t.pc = s.pc + 2)
  | .cls | .ldByte _ _ | .addByte _ _ | .ldReg _ _ | .orReg _ _ | .andReg _ _ | .xorReg _ _ | .addReg _ _
  | .subReg _ _ | .shr _ _ | .subnReg _ _ | .shl _ _ | .ldI _ | .rnd _ _ | .drw _ _ _ | .ldVxDt _ | .ldDtVx _
  | .ldStVx _ | .addI _ | .ldF _ | .ldB _ | .ldMemVx _ | .ldVxMem _ => t.pc = s.pc + 2

/-- What memory holds outside a loaded ROM: the machine's font from 0x000 to 0x04F, 0x00 elsewhere (20_memory R70). -/
def blankByte (font : Font) (a : Nat) : Byte := if h : a < 80 then font[a] else 0x00#8

/-- The machine's invariant, true after reset and kept by every step. -/
structure Inv (s : State) : Prop where
  /-- Memory is in canonical form and lists no address above 0xFFF. -/
  memCanonical : Memory.wf s.mem = true
  /-- `I` is below 0x1000 (10_state R30). -/
  indexTwelveBits : s.I.toNat < 0x1000
  /-- The largest `pc` is 0x10FE (10_state R28). -/
  pcBound : s.pc.toNat ≤ 0x10FE
  /-- Every stack slot holds an even address of at most 0x1000 (10_state R28, 42_control R166). -/
  slots : ∀ k : Fin 48, s.stack[k].toNat ≤ 0x1000 ∧ s.stack[k].toNat % 2 = 0
  /-- Slot 0 is never written (10_state R31). -/
  slotZero : s.stack[(0 : Fin 48)] = 0#16
  /-- Codes 9 to 15 are unused (60_exceptions R211). -/
  codeKnown : s.errCode.toNat ≤ 8
  /-- The core is halted exactly when an error is recorded (10_state R40). -/
  haltedIffError : s.halted = true ↔ s.errCode ≠ 0#4
  /-- With no error recorded the error registers are 0 (70_reset_and_hazards R240). -/
  noErrorNoRecord : s.halted = false → s.errOpcode = 0#16 ∧ s.errPc = 0#16 ∧ s.errAddr = 0#16

end Sys2Proof.Machine
end

