-- ==== Sys2Proof/Certificates/Slice0/Obligations.lean ====
section
/-! DEFINITION. The statements for the provers. Each docstring names the rule of spec/ it comes from. Where a rule
carries a decision mark of the spec's, or a clause rests on a log entry, the docstring says so. -/

open Sys2Proof Sys2Proof.Machine

/-! ## The step: fetch, decode, execute -/

/-- 30_encoding section 1: when the word at `pc` decodes to an instruction, the Core's step is that instruction's
meaning. Around it the step only consumes what said whose turn it is, which is the model's own (log entry 5). -/
def Obligations.StepRunsDecodedInstruction : Prop :=
  ∀ (s s0 : State) (i : Instr), CoreMoves s s0 → s.halted = false → s.pc.toNat < 0xFFF → s.pc.toNat % 2 = 0 →
    decode (wordOfBytes (readByte s s.pc.toNat) (readByte s (s.pc.toNat + 1))) = .instr i →
    step s = exec i s0

/-- 20_memory section 3 (fetch bounds before alignment, the spec's decisions D5, D19, D20): no fetch and no execution,
only the error entry. -/
def Obligations.BadFetchAddressRaises : Prop :=
  ∀ (s s0 : State), CoreMoves s s0 → s.halted = false →
    (s.pc.toNat ≥ 0xFFF → ∃ t, step s = .next t ∧
      Raised 6#4 0x0000#16 (if s.pc.toNat > 0xFFF then s.pc else 0x1000#16) s0 t) ∧
    (s.pc.toNat < 0xFFF → s.pc.toNat % 2 = 1 → ∃ t, step s = .next t ∧ Raised 7#4 0x0000#16 s.pc s0 t)

/-- 30_encoding section 5: a fetched word that matches no row raises `DECODE_ERROR` with the word and its `pc`. -/
def Obligations.UndecodedWordRaises : Prop :=
  ∀ (s s0 : State) (why : Rejected), CoreMoves s s0 → s.halted = false → s.pc.toNat < 0xFFF →
    s.pc.toNat % 2 = 0 →
    decode (wordOfBytes (readByte s s.pc.toNat) (readByte s (s.pc.toNat + 1))) = .rejected why →
    ∃ t, step s = .next t ∧
      Raised 2#4 (wordOfBytes (readByte s s.pc.toNat) (readByte s (s.pc.toNat + 1))) 0x0000#16 s0 t

/-- 60_exceptions sections 1 and 3: every event answers a next state from every state; no path of this machine ends
in a fault or a refusal, and no event changes the parameter `FONT` (log entry 4). 00_scope section 6 (the spec's decision
D2): behind the schedule the events of an endless interleaving come one after another, whatever they are (log entry 5). -/
def Obligations.StepAlwaysAnswersNext : Prop :=
  (∀ s : State, ∃ t, step s = .next t ∧ t.font = s.font) ∧
  (∀ (s : State) (k n : Nat), s.schedule = [] → s.agents = some k → ∃ t, Host.Core.run core n s = .next t ∧
    EventMoves (Config.eventAt (k + n)) t { t with agents := some (k + n + 1) })

/-- 20_memory sections 2 and 6: a word placed where the next step fetches is the word that step runs (the placing is
the model's, log entry 15). -/
def Obligations.PlacedWordRunsNext : Prop :=
  ∀ (s : State) (w : Nat) (i : Instr), decodeTableWord 16 w = some i →
    step (s.withFetchWord 16 w) = exec i (s.withFetchWord 16 w)

/-! ## Encoding -/

/-- 30_encoding section 4: words of several classes, written out bit by bit, and what they stand for. -/
def Obligations.SampleWordsDecode : Prop :=
  decode 0b0000000011100000#16 = .instr .cls ∧
  decode 0b0000000011101110#16 = .instr .ret ∧
  decode 0b0010001100000000#16 = .instr (.call 0x300#12) ∧
  decode 0b0110101001000010#16 = .instr (.ldByte 10 0x42#8) ∧
  decode 0b1000000100100101#16 = .instr (.subReg 1 2) ∧
  decode 0b1001000100101111#16 = .instr (.sneReg 1 2) ∧
  decode 0b1101001101110101#16 = .instr (.drw 3 7 5#4) ∧
  decode 0b1110001110100001#16 = .instr (.sknp 3) ∧
  decode 0b1111001001100101#16 = .instr (.ldVxMem 2)

/-- 30_encoding section 4: no operand bit is lost between the encoder and the decoder, for every well-formed
instruction. -/
def Obligations.DecodeOfEncode : Prop :=
  ∀ i : Instr, i.wellFormed = true → decode (encode i) = .instr i

/-- 30_encoding sections 4 and 5: what decodes is well-formed and encodes to the word itself, but for the low nibble
that classes 5 and 9 ignore (the spec's decision D10, log entry 9). -/
def Obligations.EncodeOfDecode : Prop :=
  ∀ (op : Word) (i : Instr), decode op = .instr i → i.wellFormed = true ∧
    encode i = if op.toNat / 4096 = 5 ∨ op.toNat / 4096 = 9 then op &&& 0xFFF0#16 else op

/-- 30_encoding sections 4 and 5: the words that match no row are exactly those of classes 8, E and F whose secondary
selector is not listed. That no word of class 0 is among them rests on the spec's decision D9 (every other 0nnn is SYS,
which raises when it runs; log entry 18), that none of classes 5 and 9 is on its decision D10 (log entry 9). -/
def Obligations.RejectedWordsAreTheUnlistedSelectors : Prop :=
  ∀ op : Word, (∃ why, decode op = .rejected why) ↔
    (op.toNat / 4096 = 8 ∧ op.toNat % 16 ∈ [8, 9, 0xA, 0xB, 0xC, 0xD, 0xF]) ∨
    (op.toNat / 4096 = 0xE ∧ op.toNat % 256 ∉ [0x9E, 0xA1]) ∨
    (op.toNat / 4096 = 0xF ∧ op.toNat % 256 ∉ [0x07, 0x0A, 0x15, 0x18, 0x1E, 0x29, 0x33, 0x55, 0x65])

/-! ## Register load, arithmetic, logic, shift, random (40_alu) -/

/-- 40_alu R122: 6xkk. -/
def Obligations.LoadByteSetsRegister : Prop :=
  ∀ (x : Reg) (kk : Byte) (s : State),
    decode (0x6#4 ++ (BitVec.ofFin x : Nibble) ++ kk) = .instr (.ldByte x kk) ∧
    ∃ t, exec (.ldByte x kk) s = .next t ∧ readV t x = kk ∧ t.pc = s.pc + 2 ∧
      OtherRegisters [x] s t ∧ OnlyChanges [.V, .pc] s t

/-- 40_alu section 2: 7xkk; VF is no flag of it (the spec's decision D12). -/
def Obligations.AddByteWrapsWithoutFlag : Prop :=
  ∀ (x : Reg) (kk : Byte) (s : State), ∃ t, exec (.addByte x kk) s = .next t ∧
    (readV t x).toNat = ((readV s x).toNat + kk.toNat) % 256 ∧ t.pc = s.pc + 2 ∧
    OtherRegisters [x] s t ∧ OnlyChanges [.V, .pc] s t

/-- 40_alu section 2: 8xy0 (an instruction the spec gives from general knowledge). -/
def Obligations.CopyRegister : Prop :=
  ∀ (x y : Reg) (s : State),
    decode (0x8#4 ++ (BitVec.ofFin x : Nibble) ++ (BitVec.ofFin y : Nibble) ++ 0x0#4) = .instr (.ldReg x y) ∧
    ∃ t, exec (.ldReg x y) s = .next t ∧ readV t x = readV s y ∧ t.pc = s.pc + 2 ∧
      OtherRegisters [x] s t ∧ OnlyChanges [.V, .pc] s t

/-- 40_alu section 3: 8xy1, 8xy2, 8xy3, bit by bit; VF is no flag of them (the spec's decision D12). -/
def Obligations.LogicWorksBitwiseWithoutFlag : Prop :=
  ∀ (x y : Reg) (s : State),
    (∃ t, exec (.orReg x y) s = .next t ∧
      (∀ b, (readV t x).getLsbD b = ((readV s x).getLsbD b || (readV s y).getLsbD b)) ∧ t.pc = s.pc + 2 ∧
      OtherRegisters [x] s t ∧ OnlyChanges [.V, .pc] s t) ∧
    (∃ t, exec (.andReg x y) s = .next t ∧
      (∀ b, (readV t x).getLsbD b = ((readV s x).getLsbD b && (readV s y).getLsbD b)) ∧ t.pc = s.pc + 2 ∧
      OtherRegisters [x] s t ∧ OnlyChanges [.V, .pc] s t) ∧
    (∃ t, exec (.xorReg x y) s = .next t ∧
      (∀ b, (readV t x).getLsbD b = ((readV s x).getLsbD b != (readV s y).getLsbD b)) ∧ t.pc = s.pc + 2 ∧
      OtherRegisters [x] s t ∧ OnlyChanges [.V, .pc] s t)

/-- 40_alu sections 1 and 4: 8xy4. With x = 0xF the sum stays in VF and the carry is lost (the spec's decision D11,
log entry 8). -/
def Obligations.AddRegisterSetsCarry : Prop :=
  ∀ (x y : Reg) (s : State), ∃ t, exec (.addReg x y) s = .next t ∧
    (readV t x).toNat = ((readV s x).toNat + (readV s y).toNat) % 256 ∧
    (x ≠ 15 → readV t 15 = if (readV s x).toNat + (readV s y).toNat > 255 then 1#8 else 0#8) ∧ t.pc = s.pc + 2 ∧
    OtherRegisters [x, 15] s t ∧ OnlyChanges [.V, .pc] s t

/-- 40_alu sections 1 and 4: 8xy5 and 8xy7; the flag is strict. With x = 0xF the difference stays in VF (the spec's
decision D11, log entry 8). -/
def Obligations.SubtractSetsStrictNotBorrow : Prop :=
  ∀ (x y : Reg) (s : State),
    (∃ t, exec (.subReg x y) s = .next t ∧
      (readV t x).toNat = ((readV s x).toNat + 256 - (readV s y).toNat) % 256 ∧
      (x ≠ 15 → readV t 15 = if (readV s x).toNat > (readV s y).toNat then 1#8 else 0#8) ∧ t.pc = s.pc + 2 ∧
      OtherRegisters [x, 15] s t ∧ OnlyChanges [.V, .pc] s t) ∧
    (∃ t, exec (.subnReg x y) s = .next t ∧
      (readV t x).toNat = ((readV s y).toNat + 256 - (readV s x).toNat) % 256 ∧
      (x ≠ 15 → readV t 15 = if (readV s y).toNat > (readV s x).toNat then 1#8 else 0#8) ∧ t.pc = s.pc + 2 ∧
      OtherRegisters [x, 15] s t ∧ OnlyChanges [.V, .pc] s t)

/-- 40_alu sections 1 and 4: 8xy6 and 8xyE, whatever y is. With x = 0xF the shifted value stays in VF (the spec's
decision D11, log entry 8). -/
def Obligations.ShiftMovesOneBitToFlag : Prop :=
  ∀ (x y : Reg) (s : State),
    (∃ t, exec (.shr x y) s = .next t ∧ (readV t x).toNat = (readV s x).toNat / 2 ∧
      (x ≠ 15 → (readV t 15).toNat = (readV s x).toNat % 2) ∧ t.pc = s.pc + 2 ∧
      OtherRegisters [x, 15] s t ∧ OnlyChanges [.V, .pc] s t) ∧
    (∃ t, exec (.shl x y) s = .next t ∧ (readV t x).toNat = (readV s x).toNat * 2 % 256 ∧
      (x ≠ 15 → (readV t 15).toNat = (readV s x).toNat / 128) ∧ t.pc = s.pc + 2 ∧
      OtherRegisters [x, 15] s t ∧ OnlyChanges [.V, .pc] s t)

/-- 40_alu section 5: Cxkk under either reading of the mask; the drawn byte is any byte (log entries 1, 2, 6). -/
def Obligations.RandomMasksTheDraw : Prop :=
  ∀ (x : Reg) (kk : Byte) (s : State), ∃ t, exec (.rnd x kk) s = .next t ∧
    (Config.rndMask = .dest ∧ readV t x = Config.rand8 s.draws &&& readV s x ∨
     Config.rndMask = .imm ∧ readV t x = Config.rand8 s.draws &&& kk) ∧
    t.draws = s.draws + 1 ∧ t.pc = s.pc + 2 ∧ OtherRegisters [x] s t ∧ OnlyChanges [.V, .pc, .draws] s t

/-! ## Display (41_display) -/

/-- 41_display R150: 00E0. -/
def Obligations.ClearScreenClearsEveryPixel : Prop :=
  decode 0x00E0#16 = .instr .cls ∧
  ∀ s : State, ∃ t, exec .cls s = .next t ∧ (∀ col row, col < 64 → row < 32 → pixelAt t col row = false) ∧
    t.drawReady = true ∧ t.pc = s.pc + 2 ∧ OnlyChanges [.fb, .drawReady, .pc] s t

/-- 41_display section 1: Dxyn flips exactly the pixels under set bits of the sprite, each coordinate wrapped on its
own, and VF says whether one of them was set (bit order, VF = 0 and n = 0 are the spec's decision D15). -/
def Obligations.DrawFlipsCoveredPixels : Prop :=
  ∀ (x y : Reg) (n : Nibble) (s : State), n.toNat = 0 ∨ s.I.toNat + n.toNat ≤ 0x1000 →
    ∃ t, exec (.drw x y n) s = .next t ∧
      (∀ col row, col < 64 → row < 32 →
        (Covered s (readV s x) (readV s y) n.toNat col row → pixelAt t col row = !pixelAt s col row) ∧
        (¬Covered s (readV s x) (readV s y) n.toNat col row → pixelAt t col row = pixelAt s col row)) ∧
      ((∃ col row, Covered s (readV s x) (readV s y) n.toNat col row ∧ pixelAt s col row = true) →
        readV t 15 = 1#8) ∧
      ((∀ col row, Covered s (readV s x) (readV s y) n.toNat col row → pixelAt s col row = false) →
        readV t 15 = 0#8) ∧
      t.drawReady = true ∧ t.pc = s.pc + 2 ∧ OtherRegisters [15] s t ∧
      OnlyChanges [.V, .fb, .drawReady, .pc] s t

/-- 41_display section 1: drawing the same sprite at the same coordinates twice restores the display. Where the pixels
under its set bits are clear, whatever the others are, the first draw reports no collision and sets them, the second
clears them and, where there is one, reports a collision. A sprite without a set bit changes no pixel and reports none.
That VF is 0 without a collision rests on the spec's decision D15, that the second draw reads the same sprite on Dxyn
leaving `I` by its decision D16 (log entry 18). -/
def Obligations.DrawTwiceErases : Prop :=
  ∀ (x y : Reg) (n : Nibble) (s t : State), n.toNat = 0 ∨ s.I.toNat + n.toNat ≤ 0x1000 →
    exec (.drw x y n) s = .next t → readV t x = readV s x → readV t y = readV s y →
    ∃ u, exec (.drw x y n) t = .next u ∧
      (∀ col row, col < 64 → row < 32 → pixelAt u col row = pixelAt s col row) ∧
      ((∀ col row, Covered s (readV s x) (readV s y) n.toNat col row → pixelAt s col row = false) →
        readV t 15 = 0#8 ∧
        (∀ col row, Covered s (readV s x) (readV s y) n.toNat col row →
          pixelAt t col row = true ∧ pixelAt u col row = false ∧ readV u 15 = 1#8)) ∧
      ((∀ col row, ¬Covered s (readV s x) (readV s y) n.toNat col row) →
        (∀ col row, col < 64 → row < 32 → pixelAt t col row = pixelAt s col row) ∧
        readV t 15 = 0#8 ∧ readV u 15 = 0#8)

/-- 20_memory section 3 and 60_exceptions section 1 (the spec's decisions D3, D19, D20): a sprite that would run past
0xFFF raises `MEMORY_BOUNDS` before any change. -/
def Obligations.DrawPastMemoryRaises : Prop :=
  ∀ (x y : Reg) (n : Nibble) (s : State), n.toNat ≠ 0 → s.I.toNat + n.toNat > 0x1000 →
    ∃ t, exec (.drw x y n) s = .next t ∧
      Raised 5#4 (0xD#4 ++ (BitVec.ofFin x : Nibble) ++ (BitVec.ofFin y : Nibble) ++ n) 0x1000#16 s t

/-! ## Control transfer (42_control) -/

/-- 42_control section 2 (the spec's decision D9): SYS raises `DECODE_ERROR` with its word, which is its whole
effect. -/
def Obligations.SysRaisesDecodeError : Prop :=
  ∀ (nnn : Addr12) (s : State), ∃ t, exec (.sys nnn) s = .next t ∧ Raised 2#4 (0x0#4 ++ nnn) 0x0000#16 s t

/-- 42_control section 3: 1nnn. -/
def Obligations.JumpSetsPc : Prop :=
  ∀ (nnn : Addr12) (s : State), decode (0x1#4 ++ nnn) = .instr (.jp nnn) ∧
    ∃ t, exec (.jp nnn) s = .next t ∧ t.pc.toNat = nnn.toNat ∧ OnlyChanges [.pc] s t

/-- 42_control section 3: Bnnn; the sum is not reduced (the spec's decision D6). -/
def Obligations.IndexedJumpAddsV0 : Prop :=
  ∀ (nnn : Addr12) (s : State), ∃ t, exec (.jpV0 nnn) s = .next t ∧
    t.pc.toNat = nnn.toNat + (readV s 0).toNat ∧ OnlyChanges [.pc] s t

/-- 42_control section 3 and 10_state section 5: 2nnn increments, then writes `pc + 2`, then jumps (the spec's
decisions D7, D8). -/
def Obligations.CallPushesReturnAddress : Prop :=
  ∀ (nnn : Addr12) (s : State), s.sp.val < 47 → ∃ t, exec (.call nnn) s = .next t ∧
    t.sp.val = s.sp.val + 1 ∧
    (∀ k : Fin 48, t.stack[k] = if k.val = s.sp.val + 1 then s.pc + 2 else s.stack[k]) ∧
    t.pc.toNat = nnn.toNat ∧ OnlyChanges [.sp, .stack, .pc] s t

/-- 42_control section 3 and 10_state section 5: 00EE reads, then decrements; the slot is not erased (the spec's
decision D8). -/
def Obligations.ReturnPopsIntoPc : Prop :=
  ∀ s : State, s.sp.val > 0 → ∃ t, exec .ret s = .next t ∧ t.pc = s.stack[s.sp] ∧ t.sp.val + 1 = s.sp.val ∧
    OnlyChanges [.sp, .pc] s t

/-- 42_control section 3 and 60_exceptions section 1 (the spec's decisions D8, D19, D20): a call at `sp` = 47 and a
return at `sp` = 0 raise. -/
def Obligations.CallAndReturnTrapAtStackEnds : Prop :=
  (∀ (nnn : Addr12) (s : State), s.sp.val = 47 →
    ∃ t, exec (.call nnn) s = .next t ∧ Raised 3#4 (0x2#4 ++ nnn) 0x0000#16 s t) ∧
  (∀ s : State, s.sp.val = 0 → ∃ t, exec .ret s = .next t ∧ Raised 4#4 0x00EE#16 0x0000#16 s t)

/-- 42_control section 3: a call and then a return come back to the instruction after the call with the stack pointer
as it was, and change nothing else but the slot (the spec's decision D7). -/
def Obligations.CallThenReturnComesBack : Prop :=
  ∀ (nnn : Addr12) (s : State), s.sp.val < 47 → ∃ t u, exec (.call nnn) s = .next t ∧ exec .ret t = .next u ∧
    u.pc = s.pc + 2 ∧ u.sp = s.sp ∧ OnlyChanges [.pc, .stack] s u

/-- 42_control R170 and R171: 3xkk and 4xkk. -/
def Obligations.SkipComparesWithByte : Prop :=
  ∀ (x : Reg) (kk : Byte) (s : State),
    decode (0x3#4 ++ (BitVec.ofFin x : Nibble) ++ kk) = .instr (.seByte x kk) ∧
    decode (0x4#4 ++ (BitVec.ofFin x : Nibble) ++ kk) = .instr (.sneByte x kk) ∧
    (∃ t, exec (.seByte x kk) s = .next t ∧ t.pc = (if readV s x = kk then s.pc + 4 else s.pc + 2) ∧
      OnlyChanges [.pc] s t) ∧
    (∃ t, exec (.sneByte x kk) s = .next t ∧ t.pc = (if readV s x = kk then s.pc + 2 else s.pc + 4) ∧
      OnlyChanges [.pc] s t)

/-- 42_control section 4: 5xy0 and 9xy0 (the low nibble is ignored by the spec's decision D10; log entry 9). -/
def Obligations.SkipComparesRegisters : Prop :=
  ∀ (x y : Reg) (s : State),
    (∀ n : Nibble, decode (0x5#4 ++ (BitVec.ofFin x : Nibble) ++ (BitVec.ofFin y : Nibble) ++ n) = .instr (.seReg x y)) ∧
    (∀ n : Nibble, decode (0x9#4 ++ (BitVec.ofFin x : Nibble) ++ (BitVec.ofFin y : Nibble) ++ n) = .instr (.sneReg x y)) ∧
    (∃ t, exec (.seReg x y) s = .next t ∧ t.pc = (if readV s x = readV s y then s.pc + 4 else s.pc + 2) ∧
      OnlyChanges [.pc] s t) ∧
    (∃ t, exec (.sneReg x y) s = .next t ∧ t.pc = (if readV s x = readV s y then s.pc + 2 else s.pc + 4) ∧
      OnlyChanges [.pc] s t)

/-- 42_control section 4: Ex9E and ExA1 with a key index. -/
def Obligations.KeySkipsSampleTheKey : Prop :=
  ∀ (x : Reg) (s : State), (readV s x).toNat ≤ 15 →
    (∃ t, exec (.skp x) s = .next t ∧
      t.pc = (if keyDown s (readV s x).toNat then s.pc + 4 else s.pc + 2) ∧ OnlyChanges [.pc] s t) ∧
    (∃ t, exec (.sknp x) s = .next t ∧
      t.pc = (if keyDown s (readV s x).toNat then s.pc + 2 else s.pc + 4) ∧ OnlyChanges [.pc] s t)

/-- 42_control section 4 and 60_exceptions section 1 (the spec's decisions D18, D19): no key index raises
`KEY_INDEX_BOUNDS` with the register's value. -/
def Obligations.KeySkipsTrapAboveFifteen : Prop :=
  ∀ (x : Reg) (s : State), (readV s x).toNat > 15 →
    (∃ t, exec (.skp x) s = .next t ∧
      Raised 8#4 (0xE#4 ++ (BitVec.ofFin x : Nibble) ++ 0x9E#8) ((readV s x).setWidth 16) s t) ∧
    (∃ t, exec (.sknp x) s = .next t ∧
      Raised 8#4 (0xE#4 ++ (BitVec.ofFin x : Nibble) ++ 0xA1#8) ((readV s x).setWidth 16) s t)

/-! ## Keys and timers (43_keys_timers) -/

/-- 43_keys_timers: Fx07, Fx15, Fx18 (instructions the spec gives from general knowledge). -/
def Obligations.TimerMovesCopyBytes : Prop :=
  ∀ (x : Reg) (s : State),
    decode (0xF#4 ++ (BitVec.ofFin x : Nibble) ++ 0x07#8) = .instr (.ldVxDt x) ∧
    decode (0xF#4 ++ (BitVec.ofFin x : Nibble) ++ 0x15#8) = .instr (.ldDtVx x) ∧
    decode (0xF#4 ++ (BitVec.ofFin x : Nibble) ++ 0x18#8) = .instr (.ldStVx x) ∧
    (∃ t, exec (.ldVxDt x) s = .next t ∧ readV t x = s.DT ∧ t.pc = s.pc + 2 ∧
      OtherRegisters [x] s t ∧ OnlyChanges [.V, .pc] s t) ∧
    (∃ t, exec (.ldDtVx x) s = .next t ∧ t.DT = readV s x ∧ t.pc = s.pc + 2 ∧ OnlyChanges [.DT, .pc] s t) ∧
    (∃ t, exec (.ldStVx x) s = .next t ∧ t.ST = readV s x ∧ t.pc = s.pc + 2 ∧ OnlyChanges [.ST, .pc] s t)

/-- 43_keys_timers section on Fx0A (the spec's decision D17): with no key down the instruction changes nothing, `pc`
included. -/
def Obligations.WaitForKeyHoldsWithoutKey : Prop :=
  ∀ (x : Reg) (s : State), (∀ k, k < 16 → keyDown s k = false) → exec (.ldVxK x) s = .next s

/-- 43_keys_timers section on Fx0A (the spec's decision D17): with a key down it stores the index of a key that is
down, any of them (log entries 3 and 6), and goes on. -/
def Obligations.WaitForKeyTakesAPressedKey : Prop :=
  ∀ (x : Reg) (s : State) (j : Nat), j < 16 → keyDown s j = true →
    ∃ t, exec (.ldVxK x) s = .next t ∧ (readV t x).toNat < 16 ∧ keyDown s (readV t x).toNat = true ∧
      t.draws = s.draws + 1 ∧ t.pc = s.pc + 2 ∧ OtherRegisters [x] s t ∧ OnlyChanges [.V, .pc, .draws] s t

/-! ## Index register and memory (44_memory_index) -/

/-- 44_memory_index section 1: Annn (an instruction the spec gives from general knowledge). -/
def Obligations.LoadIndexSetsI : Prop :=
  ∀ (nnn : Addr12) (s : State), decode (0xA#4 ++ nnn) = .instr (.ldI nnn) ∧
    ∃ t, exec (.ldI nnn) s = .next t ∧ t.I.toNat = nnn.toNat ∧ t.pc = s.pc + 2 ∧ OnlyChanges [.I, .pc] s t

/-- 44_memory_index R197: Fx29; the whole byte is multiplied, and for a digit `I` is where its glyph's five bytes
begin. -/
def Obligations.GlyphAddressIsFiveTimesTheByte : Prop :=
  ∀ (x : Reg) (s : State), decode (0xF#4 ++ (BitVec.ofFin x : Nibble) ++ 0x29#8) = .instr (.ldF x) ∧
    ∃ t, exec (.ldF x) s = .next t ∧ t.I.toNat = (readV s x).toNat * 5 ∧ t.pc = s.pc + 2 ∧
      OnlyChanges [.I, .pc] s t

/-- 44_memory_index section 1: Fx1E; the sum is kept to 12 bits and VF is no flag of it (the spec's decisions D4 and
D12, log entry 10). -/
def Obligations.AddIndexWrapsAtTwelveBits : Prop :=
  ∀ (x : Reg) (s : State), ∃ t, exec (.addI x) s = .next t ∧
    t.I.toNat = (s.I.toNat + (readV s x).toNat) % 4096 ∧ t.pc = s.pc + 2 ∧ OnlyChanges [.I, .pc] s t

/-- 44_memory_index section 2: Fx33, in range and past memory (that `I` stays is the spec's decision D16, that the
range check comes first D3 and D20, the form of the report D19). -/
def Obligations.BcdStoresThreeDigits : Prop :=
  ∀ (x : Reg) (s : State), decode (0xF#4 ++ (BitVec.ofFin x : Nibble) ++ 0x33#8) = .instr (.ldB x) ∧
    (s.I.toNat + 2 ≤ 0xFFF → ∃ t, exec (.ldB x) s = .next t ∧
      (readByte t s.I.toNat).toNat = (readV s x).toNat / 100 ∧
      (readByte t (s.I.toNat + 1)).toNat = (readV s x).toNat / 10 % 10 ∧
      (readByte t (s.I.toNat + 2)).toNat = (readV s x).toNat % 10 ∧
      (∀ a, a < s.I.toNat ∨ s.I.toNat + 3 ≤ a → readByte t a = readByte s a) ∧
      t.pc = s.pc + 2 ∧ OnlyChanges [.mem, .pc] s t) ∧
    (s.I.toNat + 2 > 0xFFF → ∃ t, exec (.ldB x) s = .next t ∧
      Raised 5#4 (0xF#4 ++ (BitVec.ofFin x : Nibble) ++ 0x33#8) 0x1000#16 s t)

/-- 44_memory_index section 2: Fx55, in range and past memory (the spec's decisions D3, D16, D19, D20). -/
def Obligations.RegisterDumpStoresRun : Prop :=
  ∀ (x : Reg) (s : State), decode (0xF#4 ++ (BitVec.ofFin x : Nibble) ++ 0x55#8) = .instr (.ldMemVx x) ∧
    (s.I.toNat + x.val ≤ 0xFFF → ∃ t, exec (.ldMemVx x) s = .next t ∧
      (∀ r : Reg, r.val ≤ x.val → readByte t (s.I.toNat + r.val) = readV s r) ∧
      (∀ a, a < s.I.toNat ∨ s.I.toNat + x.val < a → readByte t a = readByte s a) ∧
      t.pc = s.pc + 2 ∧ OnlyChanges [.mem, .pc] s t) ∧
    (s.I.toNat + x.val > 0xFFF → ∃ t, exec (.ldMemVx x) s = .next t ∧
      Raised 5#4 (0xF#4 ++ (BitVec.ofFin x : Nibble) ++ 0x55#8) 0x1000#16 s t)

/-- 44_memory_index section 2: Fx65, in range and past memory (the spec's decisions D3, D16, D19, D20). -/
def Obligations.RegisterLoadReadsRun : Prop :=
  ∀ (x : Reg) (s : State), decode (0xF#4 ++ (BitVec.ofFin x : Nibble) ++ 0x65#8) = .instr (.ldVxMem x) ∧
    (s.I.toNat + x.val ≤ 0xFFF → ∃ t, exec (.ldVxMem x) s = .next t ∧
      (∀ r : Reg, r.val ≤ x.val → readV t r = readByte s (s.I.toNat + r.val)) ∧
      (∀ r : Reg, r.val > x.val → readV t r = readV s r) ∧
      t.pc = s.pc + 2 ∧ OnlyChanges [.V, .pc] s t) ∧
    (s.I.toNat + x.val > 0xFFF → ∃ t, exec (.ldVxMem x) s = .next t ∧
      Raised 5#4 (0xF#4 ++ (BitVec.ofFin x : Nibble) ++ 0x65#8) 0x1000#16 s t)

/-- 44_memory_index section 2: storing V0 to Vx and loading them from the same region, whatever the registers became
in between, gives their values back. That `I` is again the `I` of the store is a premise, so the statement does not rest
on the spec's decision D16. -/
def Obligations.DumpThenLoadRestores : Prop :=
  ∀ (x : Reg) (s : State), s.I.toNat + x.val ≤ 0xFFF → ∃ t, exec (.ldMemVx x) s = .next t ∧
    ∀ u : State, u.mem = t.mem → u.I = s.I → ∃ v, exec (.ldVxMem x) u = .next v ∧
      ∀ r : Reg, r.val ≤ x.val → readV v r = readV s r

/-- 20_memory section 6: a store over the next instruction is seen by its fetch, with nothing in between. -/
def Obligations.StoreIsSeenByTheNextFetch : Prop :=
  ∀ (x : Reg) (s : State), x.val ≥ 1 → s.I.toNat + x.val ≤ 0xFFF → s.I = s.pc + 2 → s.pc.toNat % 2 = 0 →
    ∃ t, exec (.ldMemVx x) s = .next t ∧ fetch t = .word (wordOfBytes (readV s 0) (readV s 1))

/-! ## The other agents' events and reset (41_display, 60_exceptions, 70_reset_and_hazards) -/

/-- 60_exceptions section 4 (the spec's decision D24): one tick counts both timers down, never below zero, and does
nothing while halted. -/
def Obligations.TimerTickCountsDown : Prop :=
  ∀ (s s0 : State), EventMoves .timerTick s s0 →
    (s.halted = true → step s = .next s0) ∧
    (s.halted = false → ∃ t, step s = .next t ∧ t.DT.toNat = s.DT.toNat - 1 ∧ t.ST.toNat = s.ST.toNat - 1 ∧
      OnlyChanges [.DT, .ST] s0 t)

/-- 43_keys_timers section on timers against steps: after `n` ticks a timer that held `d` holds `max (d - n) 0`. -/
def Obligations.ManyTicksCountDown : Prop :=
  ∀ (n : Nat) (rest : List Event) (s : State), s.schedule = List.replicate n .timerTick ++ rest → s.halted = false →
    ∃ t, Host.Core.run core n s = .next t ∧ t.DT.toNat = s.DT.toNat - n ∧ t.ST.toNat = s.ST.toNat - n ∧
      t.schedule = rest ∧ OnlyChanges [.DT, .ST, .schedule] s t

/-- 43_keys_timers section on timers against steps: `DT` never increases except by Fx15. -/
def Obligations.DelayTimerRisesOnlyByFx15 : Prop :=
  ∀ (s t : State), step s = .next t → t.DT.toNat > s.DT.toNat →
    ∃ s0 x, CoreMoves s s0 ∧ s.halted = false ∧ s.pc.toNat < 0xFFF ∧ s.pc.toNat % 2 = 0 ∧
      decode (wordOfBytes (readByte s s.pc.toNat) (readByte s (s.pc.toNat + 1))) = .instr (.ldDtVx x)

/-- 60_exceptions R228: a key event writes its key and nothing else, halted or not, and no step of the core writes a
key. -/
def Obligations.KeySetWritesOneKey : Prop :=
  (∀ (s s0 : State) (k : Fin 16) (b : Bool), EventMoves (.keySet k b) s s0 →
    ∃ t, step s = .next t ∧ (∀ j, j < 16 → keyDown t j = if j = k.val then b else keyDown s j) ∧
      OnlyChanges [.key] s0 t) ∧
  (∀ (s s0 t : State), CoreMoves s s0 → step s = .next t → t.key = s.key)

/-- 41_display section 2 (the spec's decision D25): the Presenter's events; a read returns every pixel and the flag as
the last completed event left them and changes nothing, an acknowledgement clears the flag alone. -/
def Obligations.PresenterReadsAndAcknowledges : Prop :=
  ∀ (s s0 : State),
    (EventMoves .frameRead s s0 → step s = .next s0 ∧ (frameRead s0).2 = s.drawReady ∧
      ∀ col row, col < 64 → row < 32 → (frameRead s0).1.getLsbD (col + row * 64) = pixelAt s col row) ∧
    (EventMoves .drawAck s s0 → ∃ t, step s = .next t ∧ t.drawReady = false ∧ OnlyChanges [.drawReady] s0 t)

/-- 70_reset_and_hazards section 1 and 20_memory section 4: what `Reset` with an accepted ROM leaves, from every
state and for every font, which is the parameter the machine carries (log entry 4); zeros outside and the values of the
stack, the draw-ready flag and the error registers are the spec's decision D21 (log entry 7). -/
def Obligations.ResetLoadsTheRom : Prop :=
  ∀ (s s0 : State) (rom : List Byte), EventMoves (.reset rom) s s0 → rom.length ≤ 3584 →
    ∃ t, step s = .next t ∧ ResetRegisters t ∧ NoError t ∧ t.font = s.font ∧
      (∀ a, readByte t a = if 0x200 ≤ a ∧ a < 0x200 + rom.length then rom.getD (a - 0x200) 0x00#8 else
        blankByte s.font a)

/-- 70_reset_and_hazards section 1 (the spec's decisions D21 and D22): a ROM of more than 3584 bytes leaves the core
halted with `LOAD_ERROR` and no ROM byte written, for every font (log entries 4 and 7). -/
def Obligations.OversizeRomIsRejected : Prop :=
  ∀ (s s0 : State) (rom : List Byte), EventMoves (.reset rom) s s0 → rom.length > 3584 →
    ∃ t, step s = .next t ∧ ResetRegisters t ∧ t.halted = true ∧ t.errCode = 1#4 ∧ t.errOpcode = 0x0000#16 ∧
      t.errPc = 0x0000#16 ∧ t.errAddr = 0x0000#16 ∧ t.font = s.font ∧
      ∀ a, readByte t a = blankByte s.font a

/-- 10_state sections 1 and 6 and 70_reset_and_hazards section 1: the state after reset with an empty ROM, its memory the
80 bytes of 10_state R35 written out here and zeros above them. The table is the default the spec recommends for its
open parameter `FONT` (log entry 4); the zeros are the spec's decision D21 (log entry 7). -/
def Obligations.ResetStateIsAsListed : Prop :=
  ResetRegisters State.reset ∧ NoError State.reset ∧ (∀ a, readByte State.reset a = blankByte State.reset.font a) ∧
  ∀ a, readByte State.reset a =
    ([0xF0#8, 0x90#8, 0x90#8, 0x90#8, 0xF0#8] ++ [0x20#8, 0x60#8, 0x20#8, 0x20#8, 0x70#8] ++
     [0xF0#8, 0x10#8, 0xF0#8, 0x80#8, 0xF0#8] ++ [0xF0#8, 0x10#8, 0xF0#8, 0x10#8, 0xF0#8] ++
     [0x90#8, 0x90#8, 0xF0#8, 0x10#8, 0x10#8] ++ [0xF0#8, 0x80#8, 0xF0#8, 0x10#8, 0xF0#8] ++
     [0xF0#8, 0x80#8, 0xF0#8, 0x90#8, 0xF0#8] ++ [0xF0#8, 0x10#8, 0x20#8, 0x40#8, 0x40#8] ++
     [0xF0#8, 0x90#8, 0xF0#8, 0x90#8, 0xF0#8] ++ [0xF0#8, 0x90#8, 0xF0#8, 0x10#8, 0xF0#8] ++
     [0xF0#8, 0x90#8, 0xF0#8, 0x90#8, 0x90#8] ++ [0xE0#8, 0x90#8, 0xE0#8, 0x90#8, 0xE0#8] ++
     [0xF0#8, 0x80#8, 0x80#8, 0x80#8, 0xF0#8] ++ [0xE0#8, 0x90#8, 0x90#8, 0x90#8, 0xE0#8] ++
     [0xF0#8, 0x80#8, 0xF0#8, 0x80#8, 0xF0#8] ++ [0xF0#8, 0x80#8, 0xF0#8, 0x80#8, 0x80#8]).getD a 0x00#8

/-! ## Rules of the whole machine -/

/-- 10_state section 4, the complete list of how each instruction changes `pc` (the indexed jump's sum is not reduced
by the spec's decision D6), and that a step that raises leaves it (the spec's decision D20). -/
def Obligations.NextPcOfEveryInstruction : Prop :=
  (∀ (i : Instr) (s t : State), s.halted = false → exec i s = .next t → t.halted = false → NextPc i s t) ∧
  (∀ (s s0 t : State), CoreMoves s s0 → s.halted = false → step s = .next t → t.halted = true → t.pc = s.pc)

/-- 10_state, 20_memory, 60_exceptions: every step keeps the invariant, whatever event it is (see `Inv` for the rule
each clause comes from). The bound on `pc` and the evenness of the slots are derived by the spec; that memory lists no
byte as it reads unlisted is the model's form (log entry 13); `I` below 0x1000 rests on the spec's decision D4 (log entry
10), the untouched slot 0 on D8, the code and the halted flag on D19, the zero error registers on D21 (log entries 18 and
7). -/
def Obligations.EveryStepKeepsTheInvariant : Prop :=
  ∀ (s t : State), Inv s → step s = .next t → Inv t

/-- 70_reset_and_hazards section 1: the state after reset meets the invariant. That the stack slots and the error
registers do rests on the spec's decision D21 (log entry 7). -/
def Obligations.ResetMeetsTheInvariant : Prop := Inv State.reset

/-- 10_state section 1, column "who writes it": which instructions may change which piece of state; `pc` alone has no
clause, since every instruction writes it. That Dxyn, Fx33, Fx55 and Fx65 do not write `I` rests on the spec's decision
D16, that the logic instructions, 7xkk and Fx1E write no flag on D12, the error registers on D19 (log entry 18). -/
def Obligations.OnlyTheListedWritersWrite : Prop :=
  ∀ (i : Instr) (s t : State), exec i s = .next t →
    t.key = s.key ∧ t.font = s.font ∧ t.schedule = s.schedule ∧ t.agents = s.agents ∧
    ((∃ a, readByte t a ≠ readByte s a) → ∃ x, i = .ldB x ∨ i = .ldMemVx x) ∧
    (t.I ≠ s.I → ∃ x nnn, i = .ldI nnn ∨ i = .addI x ∨ i = .ldF x) ∧
    (t.sp ≠ s.sp → ∃ nnn, i = .call nnn ∨ i = .ret) ∧
    (t.stack ≠ s.stack → ∃ nnn, i = .call nnn) ∧
    (t.DT ≠ s.DT → ∃ x, i = .ldDtVx x) ∧
    (t.ST ≠ s.ST → ∃ x, i = .ldStVx x) ∧
    (t.fb ≠ s.fb ∨ t.drawReady ≠ s.drawReady → ∃ x y n, i = .cls ∨ i = .drw x y n) ∧
    (t.draws ≠ s.draws → ∃ x kk, i = .rnd x kk ∨ i = .ldVxK x) ∧
    (∀ r, readV t r ≠ readV s r →
      (∃ kk, i = .ldByte r kk ∨ i = .addByte r kk ∨ i = .rnd r kk) ∨
      (∃ y, i = .ldReg r y ∨ i = .orReg r y ∨ i = .andReg r y ∨ i = .xorReg r y) ∨
      (∃ x y, (r = x ∨ r = 15) ∧
        (i = .addReg x y ∨ i = .subReg x y ∨ i = .shr x y ∨ i = .subnReg x y ∨ i = .shl x y)) ∨
      (r = 15 ∧ ∃ x y n, i = .drw x y n) ∨ i = .ldVxDt r ∨ i = .ldVxK r ∨
      (∃ x : Reg, r.val ≤ x.val ∧ i = .ldVxMem x)) ∧
    (t.halted ≠ s.halted ∨ t.errCode ≠ s.errCode ∨ t.errOpcode ≠ s.errOpcode ∨ t.errPc ≠ s.errPc ∨
        t.errAddr ≠ s.errAddr →
      ∃ x y n nnn, i = .sys nnn ∨ i = .call nnn ∨ i = .ret ∨ i = .drw x y n ∨ i = .ldB x ∨ i = .ldMemVx x ∨
        i = .ldVxMem x ∨ i = .skp x ∨ i = .sknp x)

/-- 10_state section 3: VF changes only under the six flag-writing instructions, or as the ordinary destination of an
instruction whose x field is 0xF (the spec's decision D12). -/
def Obligations.FlagRegisterHasSixSideWriters : Prop :=
  ∀ (i : Instr) (s t : State), exec i s = .next t → readV t 15 ≠ readV s 15 →
    (∃ x y n, i = .addReg x y ∨ i = .subReg x y ∨ i = .shr x y ∨ i = .subnReg x y ∨ i = .shl x y ∨ i = .drw x y n) ∨
    (∃ y kk, i = .ldByte 15 kk ∨ i = .addByte 15 kk ∨ i = .ldReg 15 y ∨ i = .orReg 15 y ∨ i = .andReg 15 y ∨
      i = .xorReg 15 y ∨ i = .rnd 15 kk ∨ i = .ldVxDt 15 ∨ i = .ldVxK 15 ∨ i = .ldVxMem 15)

/-- 60_exceptions section 1 (the spec's decision D20): an instruction that raises changes only the error registers. -/
def Obligations.FailingInstructionIsPrecise : Prop :=
  ∀ (i : Instr) (s t : State), s.halted = false → exec i s = .next t → t.halted = true →
    t.errPc = s.pc ∧ t.errOpcode = encode i ∧ OnlyChanges errorParts s t

/-- 60_exceptions section 1: which errors each instruction can raise; the instructions not named raise none. -/
def Obligations.ErrorsOfEachInstruction : Prop :=
  ∀ (i : Instr) (s t : State), s.halted = false → exec i s = .next t → t.halted = true →
    (t.errCode = 2#4 ∧ ∃ nnn, i = .sys nnn) ∨
    (t.errCode = 3#4 ∧ ∃ nnn, i = .call nnn) ∨
    (t.errCode = 4#4 ∧ i = .ret) ∨
    (t.errCode = 5#4 ∧ ∃ x y n, i = .drw x y n ∨ i = .ldB x ∨ i = .ldMemVx x ∨ i = .ldVxMem x) ∨
    (t.errCode = 8#4 ∧ ∃ x, i = .skp x ∨ i = .sknp x)

/-- 60_exceptions section 1 (the spec's decisions D19, D28): a halted core's step changes nothing; only `Reset` leaves
the halted state, and until then the error registers keep the first error and only the keypad and the draw-ready flag
can change. -/
def Obligations.HaltIsStickyUntilReset : Prop :=
  (∀ (s s0 : State), CoreMoves s s0 → s.halted = true → step s = .next s0) ∧
  (∀ (s t : State), s.halted = true → (∀ rom, (upcoming s).1 ≠ .reset rom) → step s = .next t →
    t.halted = true ∧ OnlyChanges [.key, .drawReady, .schedule, .agents] s t)

/-- 10_state sections 5 and 7: no instruction reads `draw_ready` or `ST`, so two states that differ only there behave
alike in everything else. -/
def Obligations.NoInstructionSeesDrawReadyOrSoundTimer : Prop :=
  ∀ (i : Instr) (s t : State) (b : Bool) (v : Byte), exec i s = .next t →
    ∃ u, exec i { s with drawReady := b, ST := v } = .next u ∧ OnlyChanges [.drawReady, .ST] t u
end

