-- ==== Sys2Proof/Laws/Decode.lean ====
section
/-! SUPPORT. The fields and formats of the instruction word as arithmetic on its number, and the fields of each
format. -/

namespace Sys2Proof

/-! ## Fields -/

theorem classField_toNat (op : Word) : (classField op).toNat = op.toNat / 4096 := by
  rw [classField, BitVec.extractLsb'_toNat, Nat.shiftRight_eq_div_pow]; omega

theorem xField_val (op : Word) : (xField op).val = op.toNat / 256 % 16 := by
  show (op.extractLsb' 8 4).toNat = _
  rw [BitVec.extractLsb'_toNat, Nat.shiftRight_eq_div_pow]

theorem yField_val (op : Word) : (yField op).val = op.toNat / 16 % 16 := by
  show (op.extractLsb' 4 4).toNat = _
  rw [BitVec.extractLsb'_toNat, Nat.shiftRight_eq_div_pow]

theorem nField_toNat (op : Word) : (nField op).toNat = op.toNat % 16 := by
  rw [nField, BitVec.extractLsb'_toNat, Nat.shiftRight_zero]

theorem kkField_toNat (op : Word) : (kkField op).toNat = op.toNat % 256 := by
  rw [kkField, BitVec.extractLsb'_toNat, Nat.shiftRight_zero]

theorem nnnField_toNat (op : Word) : (nnnField op).toNat = op.toNat % 4096 := by
  rw [nnnField, BitVec.extractLsb'_toNat, Nat.shiftRight_zero]

/-! ## Formats -/

/-- Concatenation as arithmetic: the left part counts in units of the right part's range. -/
theorem toNat_append_eq (n m : Nat) (a : BitVec n) (b : BitVec m) : (a ++ b).toNat = a.toNat * 2 ^ m + b.toNat := by
  rw [BitVec.toNat_append, ← Nat.shiftLeft_add_eq_or_of_lt b.isLt, Nat.shiftLeft_eq]

theorem formatA_toNat (c : Nibble) (nnn : Addr12) : (formatA c nnn).toNat = c.toNat * 4096 + nnn.toNat :=
  toNat_append_eq 4 12 c nnn

theorem regField_toNat (x : Reg) : (regField x).toNat = x.val := rfl

theorem formatK_toNat (c : Nibble) (x : Reg) (kk : Byte) :
    (formatK c x kk).toNat = c.toNat * 4096 + x.val * 256 + kk.toNat := by
  have h1 := toNat_append_eq 8 8 (c ++ regField x) kk
  have h2 := toNat_append_eq 4 4 c (regField x)
  rw [regField_toNat] at h2
  have h3 : (formatK c x kk).toNat = ((c ++ regField x) ++ kk).toNat := rfl
  omega

theorem formatR_toNat (c : Nibble) (x y : Reg) (n : Nibble) :
    (formatR c x y n).toNat = c.toNat * 4096 + x.val * 256 + y.val * 16 + n.toNat := by
  have h1 := toNat_append_eq 12 4 (c ++ regField x ++ regField y) n
  have h2 := toNat_append_eq 8 4 (c ++ regField x) (regField y)
  have h3 := toNat_append_eq 4 4 c (regField x)
  rw [regField_toNat] at h2 h3
  have h4 : (formatR c x y n).toNat = ((c ++ regField x ++ regField y) ++ n).toNat := rfl
  omega

theorem wordOfBytes_toNat (hi lo : Byte) : (wordOfBytes hi lo).toNat = hi.toNat * 256 + lo.toNat :=
  toNat_append_eq 8 8 hi lo

theorem hiByte_toNat (op : Word) : (hiByte op).toNat = op.toNat / 256 := by
  rw [hiByte, BitVec.extractLsb'_toNat, Nat.shiftRight_eq_div_pow]; omega

theorem loByte_toNat (op : Word) : (loByte op).toNat = op.toNat % 256 := by
  rw [loByte, BitVec.extractLsb'_toNat, Nat.shiftRight_zero]

/-- Splitting a word into its bytes and joining them again gives the word (20_memory R61). -/
theorem wordOfBytes_split (op : Word) : wordOfBytes (hiByte op) (loByte op) = op := by
  apply BitVec.eq_of_toNat_eq
  rw [wordOfBytes_toNat, hiByte_toNat, loByte_toNat]; omega

/-! ## Fields of a format -/

section

variable (c : Nibble) (nnn : Addr12) (x y : Reg) (kk : Byte) (n : Nibble)

theorem classField_formatA : (classField (formatA c nnn)).toNat = c.toNat := by
  rw [classField_toNat, formatA_toNat]; omega

theorem nnnField_formatA : nnnField (formatA c nnn) = nnn := by
  apply BitVec.eq_of_toNat_eq; rw [nnnField_toNat, formatA_toNat]; omega

theorem classField_formatK : (classField (formatK c x kk)).toNat = c.toNat := by
  have := x.isLt; rw [classField_toNat, formatK_toNat]; omega

theorem xField_formatK : xField (formatK c x kk) = x := by
  have := x.isLt; apply Fin.ext; rw [xField_val, formatK_toNat]; omega

theorem kkField_formatK : kkField (formatK c x kk) = kk := by
  apply BitVec.eq_of_toNat_eq; rw [kkField_toNat, formatK_toNat]; omega

theorem classField_formatR : (classField (formatR c x y n)).toNat = c.toNat := by
  have := x.isLt; have := y.isLt; rw [classField_toNat, formatR_toNat]; omega

theorem xField_formatR : xField (formatR c x y n) = x := by
  have := x.isLt; have := y.isLt; apply Fin.ext; rw [xField_val, formatR_toNat]; omega

theorem yField_formatR : yField (formatR c x y n) = y := by
  have := x.isLt; have := y.isLt; apply Fin.ext; rw [yField_val, formatR_toNat]; omega

theorem nField_formatR : nField (formatR c x y n) = n := by
  apply BitVec.eq_of_toNat_eq; rw [nField_toNat, formatR_toNat]; omega

end

end Sys2Proof
end

