-- ==== Sys2Proof/Laws/Memory.lean ====
section
/-! SUPPORT. The laws of memory: what a read gives after a write, and that every operation keeps the canonical form. -/

namespace Sys2Proof.Machine

/-! ## Reads after writes -/

theorem Memory.read_insert (m : Memory) (a : Nat) (b : Byte) (c : Nat) :
    Memory.read (Memory.insert m a b) c = if c = a then b else Memory.read m c := by
  induction m with
  | nil => simp [Memory.insert, Memory.read]
  | cons cell rest ih =>
    obtain ⟨k, v⟩ := cell
    by_cases h1 : a < k
    · simp [Memory.insert, Memory.read, h1]
    · by_cases h2 : a = k
      · subst h2
        by_cases hc : c = a <;> simp [Memory.insert, Memory.read, hc]
      · by_cases hc : c = k
        · have : c ≠ a := fun h => h2 (h ▸ hc)
          simp [Memory.insert, Memory.read, h1, h2, hc, Ne.symm h2]
        · simp [Memory.insert, Memory.read, h1, h2, hc, ih]

theorem Memory.read_erase (m : Memory) (a c : Nat) :
    Memory.read (Memory.erase m a) c = if c = a then resetByte a else Memory.read m c := by
  induction m with
  | nil => by_cases hc : c = a <;> simp [Memory.erase, Memory.read, hc]
  | cons cell rest ih =>
    obtain ⟨k, v⟩ := cell
    by_cases h : a = k
    · subst h
      rw [Memory.erase, if_pos rfl, ih]
      by_cases hc : c = a <;> simp [Memory.read, hc]
    · by_cases hc : c = k
      · have : c ≠ a := fun h' => h (h' ▸ hc)
        simp [Memory.erase, Memory.read, h, hc, Ne.symm h]
      · simp [Memory.erase, Memory.read, h, hc, ih]

/-- A read after a write: the byte written at its own address, what was there before everywhere else. -/
theorem Memory.read_write (m : Memory) (a : Nat) (b : Byte) (c : Nat) (ha : a < Config.memSize) :
    Memory.read (Memory.write m a b) c = if c = a then b else Memory.read m c := by
  unfold Memory.write
  by_cases hb : b = resetByte a
  · simp only [ha, if_true, hb]; exact Memory.read_erase m a c
  · simp only [ha, if_true, hb, if_false]; exact Memory.read_insert m a b c

/-- A read after a run of writes that stays in memory: the run's byte inside it, what was there before outside. -/
theorem Memory.read_writeList (bytes : List Byte) : ∀ (m : Memory) (a c : Nat),
    a + bytes.length ≤ Config.memSize →
    Memory.read (Memory.writeList m a bytes) c =
      if a ≤ c ∧ c < a + bytes.length then bytes.getD (c - a) 0#8 else Memory.read m c := by
  induction bytes with
  | nil => intro m a c _; have : ¬(a ≤ c ∧ c < a + 0) := by omega
           simp only [Memory.writeList, List.length_nil, this, if_false]
  | cons b rest ih =>
    intro m a c h
    rw [List.length_cons] at h
    rw [Memory.writeList, ih _ _ _ (by omega), Memory.read_write _ _ _ _ (by omega), List.length_cons]
    by_cases hc : c = a
    · subst hc
      have h1 : ¬(c + 1 ≤ c ∧ c < c + 1 + rest.length) := by omega
      have h2 : c ≤ c ∧ c < c + (rest.length + 1) := by omega
      rw [if_neg h1, if_pos rfl, if_pos h2]; simp
    · by_cases hin : a + 1 ≤ c ∧ c < a + 1 + rest.length
      · have h2 : a ≤ c ∧ c < a + (rest.length + 1) := by omega
        rw [if_pos hin, if_pos h2]
        have : c - a = (c - (a + 1)) + 1 := by omega
        rw [this, List.getD_cons_succ]
      · have h2 : ¬(a ≤ c ∧ c < a + (rest.length + 1)) := by omega
        rw [if_neg hin, if_neg h2, if_neg hc]

@[simp] theorem Memory.readList_length (m : Memory) (a len : Nat) : (Memory.readList m a len).length = len := by
  induction len generalizing a with
  | zero => rfl
  | succ k ih => simp [Memory.readList, ih]

/-- The `k`-th byte of a run read is the byte at its address. -/
theorem Memory.readList_getD (m : Memory) (a len k : Nat) (d : Byte) (h : k < len) :
    (Memory.readList m a len).getD k d = Memory.read m (a + k) := by
  induction len generalizing a k with
  | zero => omega
  | succ n ih =>
    cases k with
    | zero => simp [Memory.readList]
    | succ j => rw [Memory.readList, List.getD_cons_succ, ih _ _ (by omega)]; congr 1; omega

/-! ## The canonical form -/

theorem Memory.wfFrom_mono {m : Memory} {lo lo' : Nat} (h : Memory.wfFrom lo m = true) (hle : lo' ≤ lo) :
    Memory.wfFrom lo' m = true := by
  cases m with
  | nil => rfl
  | cons cell rest =>
    obtain ⟨k, v⟩ := cell
    simp only [Memory.wfFrom, Bool.and_eq_true, decide_eq_true_eq] at h ⊢
    exact ⟨⟨⟨by omega, h.1.1.2⟩, h.1.2⟩, h.2⟩

theorem Memory.wfFrom_insert (m : Memory) (a : Nat) (b : Byte) : ∀ (lo : Nat), Memory.wfFrom lo m = true → lo ≤ a →
    a < Config.memSize → b ≠ resetByte a → Memory.wfFrom lo (Memory.insert m a b) = true := by
  induction m with
  | nil => intro lo _ hl ha hb; simp [Memory.insert, Memory.wfFrom, hl, hb]; exact ha
  | cons cell rest ih =>
    obtain ⟨k, v⟩ := cell
    intro lo h hl ha hb
    have hw := h
    simp only [Memory.wfFrom, Bool.and_eq_true, decide_eq_true_eq] at hw
    obtain ⟨⟨⟨h1, h2⟩, h3⟩, h4⟩ := hw
    by_cases hlt : a < k
    · rw [Memory.insert, if_pos hlt, Memory.wfFrom, Memory.wfFrom]
      simp only [Bool.and_eq_true, decide_eq_true_eq, bne_iff_ne, ne_eq]
      exact ⟨⟨⟨hl, ha⟩, hb⟩, ⟨⟨by omega, h2⟩, by simpa using h3⟩, h4⟩
    · by_cases heq : a = k
      · subst heq
        rw [Memory.insert, if_neg hlt, if_pos rfl, Memory.wfFrom]
        simp only [Bool.and_eq_true, decide_eq_true_eq, bne_iff_ne, ne_eq]
        exact ⟨⟨⟨hl, ha⟩, hb⟩, h4⟩
      · rw [Memory.insert, if_neg hlt, if_neg heq, Memory.wfFrom]
        simp only [Bool.and_eq_true, decide_eq_true_eq, bne_iff_ne, ne_eq]
        exact ⟨⟨⟨h1, h2⟩, by simpa using h3⟩, ih (k + 1) h4 (by omega) ha hb⟩

theorem Memory.wfFrom_erase (m : Memory) (a : Nat) : ∀ (lo : Nat), Memory.wfFrom lo m = true →
    Memory.wfFrom lo (Memory.erase m a) = true := by
  induction m with
  | nil => intro lo h; exact h
  | cons cell rest ih =>
    obtain ⟨k, v⟩ := cell
    intro lo h
    simp only [Memory.wfFrom, Bool.and_eq_true, decide_eq_true_eq] at h
    obtain ⟨⟨⟨h1, h2⟩, h3⟩, h4⟩ := h
    by_cases heq : a = k
    · rw [Memory.erase, if_pos heq]
      exact ih lo (Memory.wfFrom_mono h4 (by omega))
    · rw [Memory.erase, if_neg heq, Memory.wfFrom]
      simp only [Bool.and_eq_true, decide_eq_true_eq]
      exact ⟨⟨⟨h1, h2⟩, h3⟩, ih (k + 1) h4⟩

/-- Every write keeps the canonical form. -/
theorem Memory.wf_write (m : Memory) (a : Nat) (b : Byte) (h : Memory.wf m = true) :
    Memory.wf (Memory.write m a b) = true := by
  unfold Memory.write
  by_cases ha : a < Config.memSize
  · by_cases hb : b = resetByte a
    · simp only [ha, if_true, hb]; exact Memory.wfFrom_erase m a 0 h
    · simp only [ha, if_true, hb, if_false]; exact Memory.wfFrom_insert m a b 0 h (by omega) ha hb
  · simp only [ha, if_false]; exact h

theorem Memory.wf_writeList (bytes : List Byte) : ∀ (m : Memory) (a : Nat), Memory.wf m = true →
    Memory.wf (Memory.writeList m a bytes) = true := by
  induction bytes with
  | nil => intro m a h; exact h
  | cons b rest ih => intro m a h; exact ih _ _ (Memory.wf_write m a b h)

theorem Memory.wfFrom_ofImage (bytes : List Byte) : ∀ (a : Nat), a + bytes.length ≤ Config.memSize →
    Memory.wfFrom a (Memory.ofImage a bytes) = true := by
  induction bytes with
  | nil => intro a _; rfl
  | cons b rest ih =>
    intro a h
    rw [List.length_cons] at h
    by_cases hb : b = resetByte a
    · rw [Memory.ofImage, if_pos hb]
      exact Memory.wfFrom_mono (ih (a + 1) (by omega)) (by omega)
    · rw [Memory.ofImage, if_neg hb, Memory.wfFrom]
      simp only [Bool.and_eq_true, decide_eq_true_eq, bne_iff_ne, ne_eq]
      exact ⟨⟨⟨by omega, by omega⟩, hb⟩, ih (a + 1) (by omega)⟩

/-- The memory of a loaded image is canonical. -/
theorem Memory.wf_ofImage (a : Nat) (bytes : List Byte) (h : a + bytes.length ≤ Config.memSize) :
    Memory.wf (Memory.ofImage a bytes) = true :=
  Memory.wfFrom_mono (Memory.wfFrom_ofImage bytes a h) (by omega)

theorem Memory.read_ofImage_below (bytes : List Byte) : ∀ (a c : Nat), c < a →
    Memory.read (Memory.ofImage a bytes) c = resetByte c := by
  induction bytes with
  | nil => intro a c _; rfl
  | cons b rest ih =>
    intro a c h
    by_cases hb : b = resetByte a
    · rw [Memory.ofImage, if_pos hb]; exact ih _ _ (by omega)
    · rw [Memory.ofImage, if_neg hb, Memory.read, if_neg (by omega)]; exact ih _ _ (by omega)

/-- A loaded image reads as its bytes inside it and as the reset contents outside. -/
theorem Memory.read_ofImage (bytes : List Byte) : ∀ (a c : Nat),
    Memory.read (Memory.ofImage a bytes) c =
      if a ≤ c ∧ c < a + bytes.length then bytes.getD (c - a) 0#8 else resetByte c := by
  induction bytes with
  | nil => intro a c; have : ¬(a ≤ c ∧ c < a + 0) := by omega
           simp only [Memory.ofImage, Memory.read, List.length_nil, this, if_false]
  | cons b rest ih =>
    intro a c
    rw [List.length_cons]
    by_cases hc : c = a
    · subst hc
      have h2 : c ≤ c ∧ c < c + (rest.length + 1) := by omega
      rw [if_pos h2, Nat.sub_self, List.getD_cons_zero]
      by_cases hb : b = resetByte c
      · rw [Memory.ofImage, if_pos hb, Memory.read_ofImage_below _ _ _ (by omega), hb]
      · rw [Memory.ofImage, if_neg hb, Memory.read, if_pos rfl]
    · have hrest : Memory.read (Memory.ofImage a (b :: rest)) c = Memory.read (Memory.ofImage (a + 1) rest) c := by
        by_cases hb : b = resetByte a
        · rw [Memory.ofImage, if_pos hb]
        · rw [Memory.ofImage, if_neg hb, Memory.read, if_neg hc]
      rw [hrest, ih]
      by_cases hin : a + 1 ≤ c ∧ c < a + 1 + rest.length
      · have h2 : a ≤ c ∧ c < a + (rest.length + 1) := by omega
        have : c - a = (c - (a + 1)) + 1 := by omega
        rw [if_pos hin, if_pos h2, this, List.getD_cons_succ]
      · have h2 : ¬(a ≤ c ∧ c < a + (rest.length + 1)) := by omega
        rw [if_neg hin, if_neg h2]

end Sys2Proof.Machine
end

