-- ==== Sys2Proof/Laws/State.lean ====
section
/-! SUPPORT. One lemma per field per update of the state: what each named update does to each field. -/

namespace Sys2Proof.Machine

section

variable (s : State) (x : Reg) (b : Byte) (w op addr : Word) (c : Bool) (fb : Pixels) (e : ErrorKind) (i : Instr)
  (k : Fin Config.numKeys)

@[simp] theorem writeV_mem : (writeV x b s).mem = s.mem := rfl
@[simp] theorem writeV_V : (writeV x b s).V = s.V.set x b := rfl
@[simp] theorem writeV_I : (writeV x b s).I = s.I := rfl
@[simp] theorem writeV_pc : (writeV x b s).pc = s.pc := rfl
@[simp] theorem writeV_sp : (writeV x b s).sp = s.sp := rfl
@[simp] theorem writeV_stack : (writeV x b s).stack = s.stack := rfl
@[simp] theorem writeV_DT : (writeV x b s).DT = s.DT := rfl
@[simp] theorem writeV_ST : (writeV x b s).ST = s.ST := rfl
@[simp] theorem writeV_key : (writeV x b s).key = s.key := rfl
@[simp] theorem writeV_fb : (writeV x b s).fb = s.fb := rfl
@[simp] theorem writeV_drawReady : (writeV x b s).drawReady = s.drawReady := rfl
@[simp] theorem writeV_halted : (writeV x b s).halted = s.halted := rfl
@[simp] theorem writeV_errCode : (writeV x b s).errCode = s.errCode := rfl
@[simp] theorem writeV_errOpcode : (writeV x b s).errOpcode = s.errOpcode := rfl
@[simp] theorem writeV_errPc : (writeV x b s).errPc = s.errPc := rfl
@[simp] theorem writeV_errAddr : (writeV x b s).errAddr = s.errAddr := rfl
@[simp] theorem writeV_font : (writeV x b s).font = s.font := rfl
@[simp] theorem writeV_draws : (writeV x b s).draws = s.draws := rfl
@[simp] theorem writeV_schedule : (writeV x b s).schedule = s.schedule := rfl
@[simp] theorem writeV_agents : (writeV x b s).agents = s.agents := rfl

@[simp] theorem writeI_mem : (writeI w s).mem = s.mem := rfl
@[simp] theorem writeI_V : (writeI w s).V = s.V := rfl
@[simp] theorem writeI_I : (writeI w s).I = BitVec.ofNat 16 (w.toNat % 4096) := rfl
@[simp] theorem writeI_pc : (writeI w s).pc = s.pc := rfl
@[simp] theorem writeI_sp : (writeI w s).sp = s.sp := rfl
@[simp] theorem writeI_stack : (writeI w s).stack = s.stack := rfl
@[simp] theorem writeI_DT : (writeI w s).DT = s.DT := rfl
@[simp] theorem writeI_ST : (writeI w s).ST = s.ST := rfl
@[simp] theorem writeI_key : (writeI w s).key = s.key := rfl
@[simp] theorem writeI_fb : (writeI w s).fb = s.fb := rfl
@[simp] theorem writeI_drawReady : (writeI w s).drawReady = s.drawReady := rfl
@[simp] theorem writeI_halted : (writeI w s).halted = s.halted := rfl
@[simp] theorem writeI_errCode : (writeI w s).errCode = s.errCode := rfl
@[simp] theorem writeI_errOpcode : (writeI w s).errOpcode = s.errOpcode := rfl
@[simp] theorem writeI_errPc : (writeI w s).errPc = s.errPc := rfl
@[simp] theorem writeI_errAddr : (writeI w s).errAddr = s.errAddr := rfl
@[simp] theorem writeI_font : (writeI w s).font = s.font := rfl
@[simp] theorem writeI_draws : (writeI w s).draws = s.draws := rfl
@[simp] theorem writeI_schedule : (writeI w s).schedule = s.schedule := rfl
@[simp] theorem writeI_agents : (writeI w s).agents = s.agents := rfl

@[simp] theorem writeDT_mem : (writeDT b s).mem = s.mem := rfl
@[simp] theorem writeDT_V : (writeDT b s).V = s.V := rfl
@[simp] theorem writeDT_I : (writeDT b s).I = s.I := rfl
@[simp] theorem writeDT_pc : (writeDT b s).pc = s.pc := rfl
@[simp] theorem writeDT_sp : (writeDT b s).sp = s.sp := rfl
@[simp] theorem writeDT_stack : (writeDT b s).stack = s.stack := rfl
@[simp] theorem writeDT_DT : (writeDT b s).DT = b := rfl
@[simp] theorem writeDT_ST : (writeDT b s).ST = s.ST := rfl
@[simp] theorem writeDT_key : (writeDT b s).key = s.key := rfl
@[simp] theorem writeDT_fb : (writeDT b s).fb = s.fb := rfl
@[simp] theorem writeDT_drawReady : (writeDT b s).drawReady = s.drawReady := rfl
@[simp] theorem writeDT_halted : (writeDT b s).halted = s.halted := rfl
@[simp] theorem writeDT_errCode : (writeDT b s).errCode = s.errCode := rfl
@[simp] theorem writeDT_errOpcode : (writeDT b s).errOpcode = s.errOpcode := rfl
@[simp] theorem writeDT_errPc : (writeDT b s).errPc = s.errPc := rfl
@[simp] theorem writeDT_errAddr : (writeDT b s).errAddr = s.errAddr := rfl
@[simp] theorem writeDT_font : (writeDT b s).font = s.font := rfl
@[simp] theorem writeDT_draws : (writeDT b s).draws = s.draws := rfl
@[simp] theorem writeDT_schedule : (writeDT b s).schedule = s.schedule := rfl
@[simp] theorem writeDT_agents : (writeDT b s).agents = s.agents := rfl

@[simp] theorem writeST_mem : (writeST b s).mem = s.mem := rfl
@[simp] theorem writeST_V : (writeST b s).V = s.V := rfl
@[simp] theorem writeST_I : (writeST b s).I = s.I := rfl
@[simp] theorem writeST_pc : (writeST b s).pc = s.pc := rfl
@[simp] theorem writeST_sp : (writeST b s).sp = s.sp := rfl
@[simp] theorem writeST_stack : (writeST b s).stack = s.stack := rfl
@[simp] theorem writeST_DT : (writeST b s).DT = s.DT := rfl
@[simp] theorem writeST_ST : (writeST b s).ST = b := rfl
@[simp] theorem writeST_key : (writeST b s).key = s.key := rfl
@[simp] theorem writeST_fb : (writeST b s).fb = s.fb := rfl
@[simp] theorem writeST_drawReady : (writeST b s).drawReady = s.drawReady := rfl
@[simp] theorem writeST_halted : (writeST b s).halted = s.halted := rfl
@[simp] theorem writeST_errCode : (writeST b s).errCode = s.errCode := rfl
@[simp] theorem writeST_errOpcode : (writeST b s).errOpcode = s.errOpcode := rfl
@[simp] theorem writeST_errPc : (writeST b s).errPc = s.errPc := rfl
@[simp] theorem writeST_errAddr : (writeST b s).errAddr = s.errAddr := rfl
@[simp] theorem writeST_font : (writeST b s).font = s.font := rfl
@[simp] theorem writeST_draws : (writeST b s).draws = s.draws := rfl
@[simp] theorem writeST_schedule : (writeST b s).schedule = s.schedule := rfl
@[simp] theorem writeST_agents : (writeST b s).agents = s.agents := rfl

@[simp] theorem jumpTo_mem : (jumpTo w s).mem = s.mem := rfl
@[simp] theorem jumpTo_V : (jumpTo w s).V = s.V := rfl
@[simp] theorem jumpTo_I : (jumpTo w s).I = s.I := rfl
@[simp] theorem jumpTo_pc : (jumpTo w s).pc = w := rfl
@[simp] theorem jumpTo_sp : (jumpTo w s).sp = s.sp := rfl
@[simp] theorem jumpTo_stack : (jumpTo w s).stack = s.stack := rfl
@[simp] theorem jumpTo_DT : (jumpTo w s).DT = s.DT := rfl
@[simp] theorem jumpTo_ST : (jumpTo w s).ST = s.ST := rfl
@[simp] theorem jumpTo_key : (jumpTo w s).key = s.key := rfl
@[simp] theorem jumpTo_fb : (jumpTo w s).fb = s.fb := rfl
@[simp] theorem jumpTo_drawReady : (jumpTo w s).drawReady = s.drawReady := rfl
@[simp] theorem jumpTo_halted : (jumpTo w s).halted = s.halted := rfl
@[simp] theorem jumpTo_errCode : (jumpTo w s).errCode = s.errCode := rfl
@[simp] theorem jumpTo_errOpcode : (jumpTo w s).errOpcode = s.errOpcode := rfl
@[simp] theorem jumpTo_errPc : (jumpTo w s).errPc = s.errPc := rfl
@[simp] theorem jumpTo_errAddr : (jumpTo w s).errAddr = s.errAddr := rfl
@[simp] theorem jumpTo_font : (jumpTo w s).font = s.font := rfl
@[simp] theorem jumpTo_draws : (jumpTo w s).draws = s.draws := rfl
@[simp] theorem jumpTo_schedule : (jumpTo w s).schedule = s.schedule := rfl
@[simp] theorem jumpTo_agents : (jumpTo w s).agents = s.agents := rfl

@[simp] theorem advance_mem : (advance s).mem = s.mem := rfl
@[simp] theorem advance_V : (advance s).V = s.V := rfl
@[simp] theorem advance_I : (advance s).I = s.I := rfl
@[simp] theorem advance_pc : (advance s).pc = s.pc + 2 := rfl
@[simp] theorem advance_sp : (advance s).sp = s.sp := rfl
@[simp] theorem advance_stack : (advance s).stack = s.stack := rfl
@[simp] theorem advance_DT : (advance s).DT = s.DT := rfl
@[simp] theorem advance_ST : (advance s).ST = s.ST := rfl
@[simp] theorem advance_key : (advance s).key = s.key := rfl
@[simp] theorem advance_fb : (advance s).fb = s.fb := rfl
@[simp] theorem advance_drawReady : (advance s).drawReady = s.drawReady := rfl
@[simp] theorem advance_halted : (advance s).halted = s.halted := rfl
@[simp] theorem advance_errCode : (advance s).errCode = s.errCode := rfl
@[simp] theorem advance_errOpcode : (advance s).errOpcode = s.errOpcode := rfl
@[simp] theorem advance_errPc : (advance s).errPc = s.errPc := rfl
@[simp] theorem advance_errAddr : (advance s).errAddr = s.errAddr := rfl
@[simp] theorem advance_font : (advance s).font = s.font := rfl
@[simp] theorem advance_draws : (advance s).draws = s.draws := rfl
@[simp] theorem advance_schedule : (advance s).schedule = s.schedule := rfl
@[simp] theorem advance_agents : (advance s).agents = s.agents := rfl

@[simp] theorem skipIf_mem : (skipIf c s).mem = s.mem := rfl
@[simp] theorem skipIf_V : (skipIf c s).V = s.V := rfl
@[simp] theorem skipIf_I : (skipIf c s).I = s.I := rfl
@[simp] theorem skipIf_pc : (skipIf c s).pc = if c then s.pc + 4 else s.pc + 2 := rfl
@[simp] theorem skipIf_sp : (skipIf c s).sp = s.sp := rfl
@[simp] theorem skipIf_stack : (skipIf c s).stack = s.stack := rfl
@[simp] theorem skipIf_DT : (skipIf c s).DT = s.DT := rfl
@[simp] theorem skipIf_ST : (skipIf c s).ST = s.ST := rfl
@[simp] theorem skipIf_key : (skipIf c s).key = s.key := rfl
@[simp] theorem skipIf_fb : (skipIf c s).fb = s.fb := rfl
@[simp] theorem skipIf_drawReady : (skipIf c s).drawReady = s.drawReady := rfl
@[simp] theorem skipIf_halted : (skipIf c s).halted = s.halted := rfl
@[simp] theorem skipIf_errCode : (skipIf c s).errCode = s.errCode := rfl
@[simp] theorem skipIf_errOpcode : (skipIf c s).errOpcode = s.errOpcode := rfl
@[simp] theorem skipIf_errPc : (skipIf c s).errPc = s.errPc := rfl
@[simp] theorem skipIf_errAddr : (skipIf c s).errAddr = s.errAddr := rfl
@[simp] theorem skipIf_font : (skipIf c s).font = s.font := rfl
@[simp] theorem skipIf_draws : (skipIf c s).draws = s.draws := rfl
@[simp] theorem skipIf_schedule : (skipIf c s).schedule = s.schedule := rfl
@[simp] theorem skipIf_agents : (skipIf c s).agents = s.agents := rfl

@[simp] theorem showPixels_mem : (showPixels fb s).mem = s.mem := rfl
@[simp] theorem showPixels_V : (showPixels fb s).V = s.V := rfl
@[simp] theorem showPixels_I : (showPixels fb s).I = s.I := rfl
@[simp] theorem showPixels_pc : (showPixels fb s).pc = s.pc := rfl
@[simp] theorem showPixels_sp : (showPixels fb s).sp = s.sp := rfl
@[simp] theorem showPixels_stack : (showPixels fb s).stack = s.stack := rfl
@[simp] theorem showPixels_DT : (showPixels fb s).DT = s.DT := rfl
@[simp] theorem showPixels_ST : (showPixels fb s).ST = s.ST := rfl
@[simp] theorem showPixels_key : (showPixels fb s).key = s.key := rfl
@[simp] theorem showPixels_fb : (showPixels fb s).fb = fb := rfl
@[simp] theorem showPixels_drawReady : (showPixels fb s).drawReady = true := rfl
@[simp] theorem showPixels_halted : (showPixels fb s).halted = s.halted := rfl
@[simp] theorem showPixels_errCode : (showPixels fb s).errCode = s.errCode := rfl
@[simp] theorem showPixels_errOpcode : (showPixels fb s).errOpcode = s.errOpcode := rfl
@[simp] theorem showPixels_errPc : (showPixels fb s).errPc = s.errPc := rfl
@[simp] theorem showPixels_errAddr : (showPixels fb s).errAddr = s.errAddr := rfl
@[simp] theorem showPixels_font : (showPixels fb s).font = s.font := rfl
@[simp] theorem showPixels_draws : (showPixels fb s).draws = s.draws := rfl
@[simp] theorem showPixels_schedule : (showPixels fb s).schedule = s.schedule := rfl
@[simp] theorem showPixels_agents : (showPixels fb s).agents = s.agents := rfl

@[simp] theorem nextDraw_mem : (nextDraw s).mem = s.mem := rfl
@[simp] theorem nextDraw_V : (nextDraw s).V = s.V := rfl
@[simp] theorem nextDraw_I : (nextDraw s).I = s.I := rfl
@[simp] theorem nextDraw_pc : (nextDraw s).pc = s.pc := rfl
@[simp] theorem nextDraw_sp : (nextDraw s).sp = s.sp := rfl
@[simp] theorem nextDraw_stack : (nextDraw s).stack = s.stack := rfl
@[simp] theorem nextDraw_DT : (nextDraw s).DT = s.DT := rfl
@[simp] theorem nextDraw_ST : (nextDraw s).ST = s.ST := rfl
@[simp] theorem nextDraw_key : (nextDraw s).key = s.key := rfl
@[simp] theorem nextDraw_fb : (nextDraw s).fb = s.fb := rfl
@[simp] theorem nextDraw_drawReady : (nextDraw s).drawReady = s.drawReady := rfl
@[simp] theorem nextDraw_halted : (nextDraw s).halted = s.halted := rfl
@[simp] theorem nextDraw_errCode : (nextDraw s).errCode = s.errCode := rfl
@[simp] theorem nextDraw_errOpcode : (nextDraw s).errOpcode = s.errOpcode := rfl
@[simp] theorem nextDraw_errPc : (nextDraw s).errPc = s.errPc := rfl
@[simp] theorem nextDraw_errAddr : (nextDraw s).errAddr = s.errAddr := rfl
@[simp] theorem nextDraw_font : (nextDraw s).font = s.font := rfl
@[simp] theorem nextDraw_draws : (nextDraw s).draws = s.draws + 1 := rfl
@[simp] theorem nextDraw_schedule : (nextDraw s).schedule = s.schedule := rfl
@[simp] theorem nextDraw_agents : (nextDraw s).agents = s.agents := rfl

@[simp] theorem raise_mem : (raise e op addr s).mem = s.mem := rfl
@[simp] theorem raise_V : (raise e op addr s).V = s.V := rfl
@[simp] theorem raise_I : (raise e op addr s).I = s.I := rfl
@[simp] theorem raise_pc : (raise e op addr s).pc = s.pc := rfl
@[simp] theorem raise_sp : (raise e op addr s).sp = s.sp := rfl
@[simp] theorem raise_stack : (raise e op addr s).stack = s.stack := rfl
@[simp] theorem raise_DT : (raise e op addr s).DT = s.DT := rfl
@[simp] theorem raise_ST : (raise e op addr s).ST = s.ST := rfl
@[simp] theorem raise_key : (raise e op addr s).key = s.key := rfl
@[simp] theorem raise_fb : (raise e op addr s).fb = s.fb := rfl
@[simp] theorem raise_drawReady : (raise e op addr s).drawReady = s.drawReady := rfl
@[simp] theorem raise_halted : (raise e op addr s).halted = true := rfl
@[simp] theorem raise_errCode : (raise e op addr s).errCode = errorCode e := rfl
@[simp] theorem raise_errOpcode : (raise e op addr s).errOpcode = op := rfl
@[simp] theorem raise_errPc : (raise e op addr s).errPc = s.pc := rfl
@[simp] theorem raise_errAddr : (raise e op addr s).errAddr = addr := rfl
@[simp] theorem raise_font : (raise e op addr s).font = s.font := rfl
@[simp] theorem raise_draws : (raise e op addr s).draws = s.draws := rfl
@[simp] theorem raise_schedule : (raise e op addr s).schedule = s.schedule := rfl
@[simp] theorem raise_agents : (raise e op addr s).agents = s.agents := rfl

@[simp] theorem raiseMemoryBounds_mem : (raiseMemoryBounds i s).mem = s.mem := rfl
@[simp] theorem raiseMemoryBounds_V : (raiseMemoryBounds i s).V = s.V := rfl
@[simp] theorem raiseMemoryBounds_I : (raiseMemoryBounds i s).I = s.I := rfl
@[simp] theorem raiseMemoryBounds_pc : (raiseMemoryBounds i s).pc = s.pc := rfl
@[simp] theorem raiseMemoryBounds_sp : (raiseMemoryBounds i s).sp = s.sp := rfl
@[simp] theorem raiseMemoryBounds_stack : (raiseMemoryBounds i s).stack = s.stack := rfl
@[simp] theorem raiseMemoryBounds_DT : (raiseMemoryBounds i s).DT = s.DT := rfl
@[simp] theorem raiseMemoryBounds_ST : (raiseMemoryBounds i s).ST = s.ST := rfl
@[simp] theorem raiseMemoryBounds_key : (raiseMemoryBounds i s).key = s.key := rfl
@[simp] theorem raiseMemoryBounds_fb : (raiseMemoryBounds i s).fb = s.fb := rfl
@[simp] theorem raiseMemoryBounds_drawReady : (raiseMemoryBounds i s).drawReady = s.drawReady := rfl
@[simp] theorem raiseMemoryBounds_halted : (raiseMemoryBounds i s).halted = true := rfl
@[simp] theorem raiseMemoryBounds_errCode : (raiseMemoryBounds i s).errCode = 5#4 := rfl
@[simp] theorem raiseMemoryBounds_errOpcode : (raiseMemoryBounds i s).errOpcode = encode i := rfl
@[simp] theorem raiseMemoryBounds_errPc : (raiseMemoryBounds i s).errPc = s.pc := rfl
@[simp] theorem raiseMemoryBounds_errAddr : (raiseMemoryBounds i s).errAddr = 0x1000#16 := rfl
@[simp] theorem raiseMemoryBounds_font : (raiseMemoryBounds i s).font = s.font := rfl
@[simp] theorem raiseMemoryBounds_draws : (raiseMemoryBounds i s).draws = s.draws := rfl
@[simp] theorem raiseMemoryBounds_schedule : (raiseMemoryBounds i s).schedule = s.schedule := rfl
@[simp] theorem raiseMemoryBounds_agents : (raiseMemoryBounds i s).agents = s.agents := rfl

@[simp] theorem raiseKeyIndex_mem : (raiseKeyIndex i x s).mem = s.mem := rfl
@[simp] theorem raiseKeyIndex_V : (raiseKeyIndex i x s).V = s.V := rfl
@[simp] theorem raiseKeyIndex_I : (raiseKeyIndex i x s).I = s.I := rfl
@[simp] theorem raiseKeyIndex_pc : (raiseKeyIndex i x s).pc = s.pc := rfl
@[simp] theorem raiseKeyIndex_sp : (raiseKeyIndex i x s).sp = s.sp := rfl
@[simp] theorem raiseKeyIndex_stack : (raiseKeyIndex i x s).stack = s.stack := rfl
@[simp] theorem raiseKeyIndex_DT : (raiseKeyIndex i x s).DT = s.DT := rfl
@[simp] theorem raiseKeyIndex_ST : (raiseKeyIndex i x s).ST = s.ST := rfl
@[simp] theorem raiseKeyIndex_key : (raiseKeyIndex i x s).key = s.key := rfl
@[simp] theorem raiseKeyIndex_fb : (raiseKeyIndex i x s).fb = s.fb := rfl
@[simp] theorem raiseKeyIndex_drawReady : (raiseKeyIndex i x s).drawReady = s.drawReady := rfl
@[simp] theorem raiseKeyIndex_halted : (raiseKeyIndex i x s).halted = true := rfl
@[simp] theorem raiseKeyIndex_errCode : (raiseKeyIndex i x s).errCode = 8#4 := rfl
@[simp] theorem raiseKeyIndex_errOpcode : (raiseKeyIndex i x s).errOpcode = encode i := rfl
@[simp] theorem raiseKeyIndex_errPc : (raiseKeyIndex i x s).errPc = s.pc := rfl
@[simp] theorem raiseKeyIndex_errAddr : (raiseKeyIndex i x s).errAddr = wordOfReg s x := rfl
@[simp] theorem raiseKeyIndex_font : (raiseKeyIndex i x s).font = s.font := rfl
@[simp] theorem raiseKeyIndex_draws : (raiseKeyIndex i x s).draws = s.draws := rfl
@[simp] theorem raiseKeyIndex_schedule : (raiseKeyIndex i x s).schedule = s.schedule := rfl
@[simp] theorem raiseKeyIndex_agents : (raiseKeyIndex i x s).agents = s.agents := rfl

@[simp] theorem writeFlag_mem : (writeFlag c s).mem = s.mem := rfl
@[simp] theorem writeFlag_V : (writeFlag c s).V = s.V.set flagReg (flagByte c) := rfl
@[simp] theorem writeFlag_I : (writeFlag c s).I = s.I := rfl
@[simp] theorem writeFlag_pc : (writeFlag c s).pc = s.pc := rfl
@[simp] theorem writeFlag_sp : (writeFlag c s).sp = s.sp := rfl
@[simp] theorem writeFlag_stack : (writeFlag c s).stack = s.stack := rfl
@[simp] theorem writeFlag_DT : (writeFlag c s).DT = s.DT := rfl
@[simp] theorem writeFlag_ST : (writeFlag c s).ST = s.ST := rfl
@[simp] theorem writeFlag_key : (writeFlag c s).key = s.key := rfl
@[simp] theorem writeFlag_fb : (writeFlag c s).fb = s.fb := rfl
@[simp] theorem writeFlag_drawReady : (writeFlag c s).drawReady = s.drawReady := rfl
@[simp] theorem writeFlag_halted : (writeFlag c s).halted = s.halted := rfl
@[simp] theorem writeFlag_errCode : (writeFlag c s).errCode = s.errCode := rfl
@[simp] theorem writeFlag_errOpcode : (writeFlag c s).errOpcode = s.errOpcode := rfl
@[simp] theorem writeFlag_errPc : (writeFlag c s).errPc = s.errPc := rfl
@[simp] theorem writeFlag_errAddr : (writeFlag c s).errAddr = s.errAddr := rfl
@[simp] theorem writeFlag_font : (writeFlag c s).font = s.font := rfl
@[simp] theorem writeFlag_draws : (writeFlag c s).draws = s.draws := rfl
@[simp] theorem writeFlag_schedule : (writeFlag c s).schedule = s.schedule := rfl
@[simp] theorem writeFlag_agents : (writeFlag c s).agents = s.agents := rfl

@[simp] theorem writeFlagThenResult_mem : (writeFlagThenResult c x b s).mem = s.mem := rfl
@[simp] theorem writeFlagThenResult_V : (writeFlagThenResult c x b s).V = (s.V.set flagReg (flagByte c)).set x b := rfl
@[simp] theorem writeFlagThenResult_I : (writeFlagThenResult c x b s).I = s.I := rfl
@[simp] theorem writeFlagThenResult_pc : (writeFlagThenResult c x b s).pc = s.pc := rfl
@[simp] theorem writeFlagThenResult_sp : (writeFlagThenResult c x b s).sp = s.sp := rfl
@[simp] theorem writeFlagThenResult_stack : (writeFlagThenResult c x b s).stack = s.stack := rfl
@[simp] theorem writeFlagThenResult_DT : (writeFlagThenResult c x b s).DT = s.DT := rfl
@[simp] theorem writeFlagThenResult_ST : (writeFlagThenResult c x b s).ST = s.ST := rfl
@[simp] theorem writeFlagThenResult_key : (writeFlagThenResult c x b s).key = s.key := rfl
@[simp] theorem writeFlagThenResult_fb : (writeFlagThenResult c x b s).fb = s.fb := rfl
@[simp] theorem writeFlagThenResult_drawReady : (writeFlagThenResult c x b s).drawReady = s.drawReady := rfl
@[simp] theorem writeFlagThenResult_halted : (writeFlagThenResult c x b s).halted = s.halted := rfl
@[simp] theorem writeFlagThenResult_errCode : (writeFlagThenResult c x b s).errCode = s.errCode := rfl
@[simp] theorem writeFlagThenResult_errOpcode : (writeFlagThenResult c x b s).errOpcode = s.errOpcode := rfl
@[simp] theorem writeFlagThenResult_errPc : (writeFlagThenResult c x b s).errPc = s.errPc := rfl
@[simp] theorem writeFlagThenResult_errAddr : (writeFlagThenResult c x b s).errAddr = s.errAddr := rfl
@[simp] theorem writeFlagThenResult_font : (writeFlagThenResult c x b s).font = s.font := rfl
@[simp] theorem writeFlagThenResult_draws : (writeFlagThenResult c x b s).draws = s.draws := rfl
@[simp] theorem writeFlagThenResult_schedule : (writeFlagThenResult c x b s).schedule = s.schedule := rfl
@[simp] theorem writeFlagThenResult_agents : (writeFlagThenResult c x b s).agents = s.agents := rfl

@[simp] theorem keySet_mem : (keySet k c s).mem = s.mem := rfl
@[simp] theorem keySet_V : (keySet k c s).V = s.V := rfl
@[simp] theorem keySet_I : (keySet k c s).I = s.I := rfl
@[simp] theorem keySet_pc : (keySet k c s).pc = s.pc := rfl
@[simp] theorem keySet_sp : (keySet k c s).sp = s.sp := rfl
@[simp] theorem keySet_stack : (keySet k c s).stack = s.stack := rfl
@[simp] theorem keySet_DT : (keySet k c s).DT = s.DT := rfl
@[simp] theorem keySet_ST : (keySet k c s).ST = s.ST := rfl
@[simp] theorem keySet_key : (keySet k c s).key = if c then s.key ||| BitVec.twoPow Config.numKeys k.val else s.key &&& ~~~(BitVec.twoPow Config.numKeys k.val) := rfl
@[simp] theorem keySet_fb : (keySet k c s).fb = s.fb := rfl
@[simp] theorem keySet_drawReady : (keySet k c s).drawReady = s.drawReady := rfl
@[simp] theorem keySet_halted : (keySet k c s).halted = s.halted := rfl
@[simp] theorem keySet_errCode : (keySet k c s).errCode = s.errCode := rfl
@[simp] theorem keySet_errOpcode : (keySet k c s).errOpcode = s.errOpcode := rfl
@[simp] theorem keySet_errPc : (keySet k c s).errPc = s.errPc := rfl
@[simp] theorem keySet_errAddr : (keySet k c s).errAddr = s.errAddr := rfl
@[simp] theorem keySet_font : (keySet k c s).font = s.font := rfl
@[simp] theorem keySet_draws : (keySet k c s).draws = s.draws := rfl
@[simp] theorem keySet_schedule : (keySet k c s).schedule = s.schedule := rfl
@[simp] theorem keySet_agents : (keySet k c s).agents = s.agents := rfl

@[simp] theorem drawAck_mem : (drawAck s).mem = s.mem := rfl
@[simp] theorem drawAck_V : (drawAck s).V = s.V := rfl
@[simp] theorem drawAck_I : (drawAck s).I = s.I := rfl
@[simp] theorem drawAck_pc : (drawAck s).pc = s.pc := rfl
@[simp] theorem drawAck_sp : (drawAck s).sp = s.sp := rfl
@[simp] theorem drawAck_stack : (drawAck s).stack = s.stack := rfl
@[simp] theorem drawAck_DT : (drawAck s).DT = s.DT := rfl
@[simp] theorem drawAck_ST : (drawAck s).ST = s.ST := rfl
@[simp] theorem drawAck_key : (drawAck s).key = s.key := rfl
@[simp] theorem drawAck_fb : (drawAck s).fb = s.fb := rfl
@[simp] theorem drawAck_drawReady : (drawAck s).drawReady = false := rfl
@[simp] theorem drawAck_halted : (drawAck s).halted = s.halted := rfl
@[simp] theorem drawAck_errCode : (drawAck s).errCode = s.errCode := rfl
@[simp] theorem drawAck_errOpcode : (drawAck s).errOpcode = s.errOpcode := rfl
@[simp] theorem drawAck_errPc : (drawAck s).errPc = s.errPc := rfl
@[simp] theorem drawAck_errAddr : (drawAck s).errAddr = s.errAddr := rfl
@[simp] theorem drawAck_font : (drawAck s).font = s.font := rfl
@[simp] theorem drawAck_draws : (drawAck s).draws = s.draws := rfl
@[simp] theorem drawAck_schedule : (drawAck s).schedule = s.schedule := rfl
@[simp] theorem drawAck_agents : (drawAck s).agents = s.agents := rfl

end

end Sys2Proof.Machine
end

