-- ==== Sys2Proof/Laws/Ops.lean ====
section
/-! SUPPORT. One lemma per shared operation: everything it can do. Callers cite these and do not unfold. -/

namespace Sys2Proof.Machine

/-! ## V registers -/

/-- A register read after a register write. -/
theorem readV_writeV (x : Reg) (b : Byte) (s : State) (r : Reg) :
    readV (writeV x b s) r = if r = x then b else readV s r := by
  simp only [readV, writeV_V, Fin.getElem_fin, Vector.getElem_set, Fin.ext_iff, eq_comm]

/-- Two states with the same V have the same registers. -/
theorem readV_congr {s t : State} (h : t.V = s.V) (r : Reg) : readV t r = readV s r := by
  unfold readV; rw [h]

section

variable (s : State) (r x : Reg) (b : Byte) (w op addr : Word) (c : Bool) (fb : Pixels) (e : ErrorKind)

@[simp] theorem readV_writeI : readV (writeI w s) r = readV s r := rfl
@[simp] theorem readV_writeDT : readV (writeDT b s) r = readV s r := rfl
@[simp] theorem readV_writeST : readV (writeST b s) r = readV s r := rfl
@[simp] theorem readV_jumpTo : readV (jumpTo w s) r = readV s r := rfl
@[simp] theorem readV_advance : readV (advance s) r = readV s r := rfl
@[simp] theorem readV_skipIf : readV (skipIf c s) r = readV s r := rfl
@[simp] theorem readV_showPixels : readV (showPixels fb s) r = readV s r := rfl
@[simp] theorem readV_nextDraw : readV (nextDraw s) r = readV s r := rfl
@[simp] theorem readV_raise : readV (raise e op addr s) r = readV s r := rfl

/-- VF after a flag, every other register as before. -/
theorem readV_writeFlag : readV (writeFlag c s) r = if r = 15 then flagByte c else readV s r :=
  readV_writeV flagReg (flagByte c) s r

/-- The result stays where it and the flag go to the same register (40_alu R120). -/
theorem readV_writeFlagThenResult :
    readV (writeFlagThenResult c x b s) r = if r = x then b else if r = 15 then flagByte c else readV s r := by
  rw [writeFlagThenResult, readV_writeV, readV_writeFlag]

end

/-! ## Program counter -/

theorem pcAfter_eq (s : State) : pcAfter s = s.pc + 2 := rfl

theorem pcSkipped_eq (s : State) : pcSkipped s = s.pc + 4 := rfl

/-! ## Index register -/

/-- `I` after a write holds the written value modulo 4096 (10_state R30). -/
theorem writeI_toNat (w : Word) (s : State) : (writeI w s).I.toNat = w.toNat % 4096 := by
  rw [writeI_I, BitVec.toNat_ofNat]; show w.toNat % 4096 % 65536 = _; omega

/-- A value below 4096 is stored as it is. -/
theorem writeI_of_lt (w : Word) (s : State) (h : w.toNat < 4096) : (writeI w s).I = w := by
  apply BitVec.eq_of_toNat_eq; rw [writeI_toNat]; omega

/-! ## Call stack -/

/-- The stack pointer is at most 47 (10_state R31). -/
theorem sp_lt (s : State) : s.sp.val < 48 := s.sp.isLt

/-- A push moves `sp` up and writes the new top slot, and is refused exactly at `sp` = 47 (10_state R31). -/
theorem pushReturn_cases (ret : Word) (s : State) :
    (s.sp.val = 47 ∧ pushReturn ret s = none) ∨
    ∃ h : s.sp.val + 1 < 48, pushReturn ret s =
      some { s with sp := ⟨s.sp.val + 1, h⟩, stack := s.stack.set (s.sp.val + 1) ret h } := by
  by_cases h : s.sp.val + 1 < 48
  · exact .inr ⟨h, dif_pos h⟩
  · exact .inl ⟨by have := sp_lt s; omega, dif_neg h⟩

/-- A pop reads the top slot and moves `sp` down, and is refused exactly at `sp` = 0 (10_state R31). -/
theorem popReturn_cases (s : State) :
    (s.sp.val = 0 ∧ popReturn s = none) ∨
    (s.sp.val ≠ 0 ∧ ∃ h : s.sp.val - 1 < 48,
      popReturn s = some (s.stack[s.sp], { s with sp := ⟨s.sp.val - 1, h⟩ })) := by
  by_cases h : s.sp.val = 0
  · exact .inl ⟨h, if_pos h⟩
  · exact .inr ⟨h, by have := sp_lt s; omega, if_neg h⟩

/-! ## Memory through `I` -/

theorem inRange_iff (s : State) (len : Nat) : inRange s len = true ↔ len = 0 ∨ s.I.toNat + len ≤ 4096 := by
  simp [inRange]

/-- A load gives the bytes from `I` up, or nothing where one would lie above 0xFFF (20_memory R64). -/
theorem loadBytes_cases (s : State) (len : Nat) :
    ((len = 0 ∨ s.I.toNat + len ≤ 4096) ∧ loadBytes s len = some (Memory.readList s.mem s.I.toNat len)) ∨
    (¬(len = 0 ∨ s.I.toNat + len ≤ 4096) ∧ loadBytes s len = none) := by
  by_cases h : len = 0 ∨ s.I.toNat + len ≤ 4096
  · exact .inl ⟨h, if_pos ((inRange_iff s len).mpr h)⟩
  · exact .inr ⟨h, if_neg (fun h' => h ((inRange_iff s len).mp h'))⟩

/-- A store writes the bytes from `I` up and nothing else, or nothing at all (20_memory R64). -/
theorem storeBytes_cases (bytes : List Byte) (s : State) (hne : bytes ≠ []) :
    (s.I.toNat + bytes.length ≤ 4096 ∧
      storeBytes bytes s = some { s with mem := Memory.writeList s.mem s.I.toNat bytes }) ∨
    (s.I.toNat + bytes.length > 4096 ∧ storeBytes bytes s = none) := by
  have hlen : bytes.length ≠ 0 := fun h => hne (List.length_eq_zero_iff.mp h)
  by_cases h : s.I.toNat + bytes.length ≤ 4096
  · exact .inl ⟨h, if_pos ((inRange_iff s bytes.length).mpr (.inr h))⟩
  · refine .inr ⟨by omega, if_neg (fun h' => ?_)⟩
    rcases (inRange_iff s bytes.length).mp h' with h0 | h0 <;> omega

/-- What is read after a store: the stored bytes from `I` up, everything else as before. -/
theorem readByte_stored (bytes : List Byte) (s : State) (a : Nat) (h : s.I.toNat + bytes.length ≤ 4096) :
    readByte { s with mem := Memory.writeList s.mem s.I.toNat bytes } a =
      if s.I.toNat ≤ a ∧ a < s.I.toNat + bytes.length then bytes.getD (a - s.I.toNat) 0#8 else readByte s a :=
  Memory.read_writeList bytes s.mem s.I.toNat a h

/-! ## Register runs -/

/-- Registers after a run load: the bytes from register `k` up, the others as before. -/
theorem readV_writeRun (bytes : List Byte) : ∀ (k : Nat) (s : State) (r : Reg),
    readV (writeRun k bytes s) r =
      if k ≤ r.val ∧ r.val < k + bytes.length then bytes.getD (r.val - k) 0#8 else readV s r := by
  induction bytes with
  | nil => intro k s r
           rw [List.length_nil, if_neg (by omega)]; rfl
  | cons b rest ih =>
    intro k s r
    have hr := r.isLt
    rw [writeRun, List.length_cons]
    by_cases hk : k < 16
    · rw [dif_pos hk, ih, readV_writeV]
      by_cases he : r.val = k
      · have : r = ⟨k, hk⟩ := Fin.ext he
        rw [if_neg (by omega), if_pos this, if_pos (by omega), he, Nat.sub_self, List.getD_cons_zero]
      · have hne : r ≠ ⟨k, hk⟩ := fun h => he (congrArg Fin.val h)
        rw [if_neg hne]
        by_cases hin : k + 1 ≤ r.val ∧ r.val < k + 1 + rest.length
        · have : r.val - k = (r.val - (k + 1)) + 1 := by omega
          rw [if_pos hin, if_pos (by omega), this, List.getD_cons_succ]
        · rw [if_neg hin, if_neg (by omega)]
    · rw [dif_neg hk, if_neg (by omega)]

/-- A run load changes V alone. -/
theorem writeRun_keeps (bytes : List Byte) : ∀ (k : Nat) (s : State), ∃ V', writeRun k bytes s = { s with V := V' } := by
  induction bytes with
  | nil => intro k s; exact ⟨s.V, rfl⟩
  | cons b rest ih =>
    intro k s
    by_cases hk : k < 16
    · obtain ⟨V', h⟩ := ih (k + 1) (writeV ⟨k, hk⟩ b s)
      exact ⟨V', by rw [writeRun, dif_pos hk, h]; rfl⟩
    · exact ⟨s.V, by rw [writeRun, dif_neg hk]⟩

@[simp] theorem registerRun_length (s : State) (x : Reg) : (registerRun s x).length = x.val + 1 := by
  have := x.isLt
  simp [registerRun]

/-- The `k`-th byte of the run V0 to Vx is register `k`. -/
theorem registerRun_getD (s : State) (x r : Reg) (h : r.val ≤ x.val) (d : Byte) :
    (registerRun s x).getD r.val d = readV s r := by
  have := r.isLt
  rw [registerRun, List.getD_eq_getElem?_getD, List.getElem?_take_of_lt (by omega)]
  simp [readV]

/-! ## Keys -/

/-- A register names a key exactly when it is at most 15. -/
theorem keyOperand_cases (s : State) (x : Reg) :
    ((readV s x).toNat ≤ 15 ∧ keyOperand s x = some (readV s x).toNat) ∨
    ((readV s x).toNat > 15 ∧ keyOperand s x = none) := by
  by_cases h : (readV s x).toNat < 16
  · exact .inl ⟨by omega, if_pos h⟩
  · exact .inr ⟨by omega, if_neg h⟩

theorem mem_pressedKeys (s : State) (k : Nat) : k ∈ pressedKeys s ↔ k < 16 ∧ keyDown s k = true := by
  simp [pressedKeys]

/-- The picked key is one of those offered. -/
theorem pickKey_mem (choice : Nat) (pressed : List Nat) (k : Nat) (h : pickKey choice pressed = some k) :
    k ∈ pressed := by
  match pressed, h with
  | [j], h => simp [pickKey] at h; simp [h]
  | j :: l :: rest, h =>
    simp only [pickKey, Option.some.injEq] at h
    rw [← h, List.getD_eq_getElem _ _ (Nat.mod_lt _ (by simp))]
    exact List.getElem_mem _

/-- A key is picked exactly when one is offered. -/
theorem pickKey_none_iff (choice : Nat) (pressed : List Nat) : pickKey choice pressed = none ↔ pressed = [] := by
  match pressed with
  | [] => simp [pickKey]
  | [_] => simp [pickKey]
  | _ :: _ :: _ => simp [pickKey]

/-- Every offered key is picked by some choice: the pick is as free as the spec leaves it (93 U7). -/
theorem pickKey_covers (pressed : List Nat) (k : Nat) (h : k ∈ pressed) :
    ∃ choice, pickKey choice pressed = some k := by
  obtain ⟨n, hn, rfl⟩ := List.getElem_of_mem h
  match pressed, hn with
  | [j], hn => exact ⟨0, by simp [pickKey]⟩
  | j :: l :: rest, hn =>
    refine ⟨n, ?_⟩
    simp only [pickKey, Nat.mod_eq_of_lt hn, List.getD_eq_getElem _ _ hn]

/-! ## Display -/

theorem getLsbD_togglePixel (i : Nat) (fb : Pixels) (j : Nat) (hi : i < 2048) :
    (togglePixel i fb).getLsbD j = (fb.getLsbD j ^^ decide (i = j)) := by
  rw [togglePixel, BitVec.getLsbD_xor, BitVec.getLsbD_twoPow]
  simp [hi]

/-- Pixels XORed one after another, each at most once: those listed are flipped and the rest are not, and the flag
adds whether a listed one was set (41_display R151, R153). -/
theorem xorPixels_spec (pixels : List Nat) : ∀ (fb : Pixels) (coll : Bool), pixels.Nodup → (∀ i ∈ pixels, i < 2048) →
    (∀ j, (xorPixels pixels fb coll).1.getLsbD j = (fb.getLsbD j ^^ decide (j ∈ pixels))) ∧
    ((xorPixels pixels fb coll).2 = true ↔ coll = true ∨ ∃ i ∈ pixels, fb.getLsbD i = true) := by
  induction pixels with
  | nil => intro fb coll _ _; simp [xorPixels]
  | cons i rest ih =>
    intro fb coll hn hb
    have hi := hb i (by simp)
    obtain ⟨hnot, hrest⟩ := List.nodup_cons.mp hn
    obtain ⟨h1, h2⟩ := ih (togglePixel i fb) (coll || fb.getLsbD i) hrest (fun j hj => hb j (by simp [hj]))
    constructor
    · intro j
      rw [xorPixels, h1 j, getLsbD_togglePixel i fb j hi]
      by_cases hij : i = j
      · subst hij; simp [hnot]
      · have hji : j ≠ i := fun h => hij h.symm
        simp [hij, hji]
    · have hsame : ∀ j ∈ rest, (togglePixel i fb).getLsbD j = fb.getLsbD j := by
        intro j hj
        have hij : i ≠ j := fun h => hnot (h ▸ hj)
        rw [getLsbD_togglePixel i fb j hi]; simp [hij]
      rw [xorPixels, h2]
      constructor
      · rintro (h | ⟨j, hj, hp⟩)
        · rcases Bool.or_eq_true_iff.mp h with h | h
          · exact .inl h
          · exact .inr ⟨i, by simp, h⟩
        · exact .inr ⟨j, by simp [hj], by rw [← hsame j hj]; exact hp⟩
      · rintro (h | ⟨j, hj, hp⟩)
        · exact .inl (by simp [h])
        · rcases List.mem_cons.mp hj with rfl | hj
          · exact .inl (by simp [hp])
          · exact .inr ⟨j, hj, by rw [hsame j hj]; exact hp⟩

theorem mem_rowPixels (vx vy : Byte) (r : Nat) (b : Byte) (p : Nat) :
    p ∈ rowPixels vx vy r b ↔ ∃ c, c < 8 ∧ b.getLsbD (7 - c) = true ∧ p = pixelIndex vx vy r c := by
  simp only [rowPixels, List.mem_map, List.mem_filter, List.mem_range]
  constructor
  · rintro ⟨c, ⟨h1, h2⟩, rfl⟩; exact ⟨c, h1, h2, rfl⟩
  · rintro ⟨c, h1, h2, rfl⟩; exact ⟨c, ⟨h1, h2⟩, rfl⟩

/-- The sprite's pixels: one for each set bit of each row (41_display R151). -/
theorem mem_spritePixels (vx vy : Byte) (rows : List Byte) : ∀ (r p : Nat), p ∈ spritePixels vx vy r rows ↔
    ∃ k c, k < rows.length ∧ c < 8 ∧ (rows.getD k 0#8).getLsbD (7 - c) = true ∧ p = pixelIndex vx vy (r + k) c := by
  induction rows with
  | nil => intro r p; simp [spritePixels]
  | cons b rest ih =>
    intro r p
    rw [spritePixels, List.mem_append, mem_rowPixels, ih]
    constructor
    · rintro (⟨c, h1, h2, h3⟩ | ⟨k, c, h1, h2, h3, h4⟩)
      · exact ⟨0, c, by simp, h1, by simpa using h2, h3⟩
      · exact ⟨k + 1, c, by simp [h1], h2, by simpa using h3, by rw [h4]; congr 1; omega⟩
    · rintro ⟨k, c, h1, h2, h3, h4⟩
      cases k with
      | zero => exact .inl ⟨c, h2, by simpa using h3, h4⟩
      | succ j => exact .inr ⟨j, c, by simpa using h1, h2, by simpa using h3, by rw [h4]; congr 1; omega⟩

theorem pixelIndex_lt (vx vy : Byte) (r c : Nat) : pixelIndex vx vy r c < 2048 := by
  simp only [pixelIndex, Config.dispW, Config.dispH]; omega

/-- Within a sprite of at most 32 rows and 8 columns distinct cells fall on distinct pixels (41_display R153). -/
theorem pixelIndex_injective (vx vy : Byte) (r c r' c' : Nat) (hr : r < 32) (hr' : r' < 32) (hc : c < 8) (hc' : c' < 8)
    (h : pixelIndex vx vy r c = pixelIndex vx vy r' c') : r = r' ∧ c = c' := by
  simp only [pixelIndex, Config.dispW, Config.dispH] at h; omega

theorem nodup_spritePixels (vx vy : Byte) (rows : List Byte) : ∀ (r : Nat), r + rows.length ≤ 32 →
    (spritePixels vx vy r rows).Nodup := by
  induction rows with
  | nil => intro r _; exact List.nodup_nil
  | cons b rest ih =>
    intro r h
    rw [List.length_cons] at h
    rw [spritePixels]
    refine List.nodup_append.mpr ⟨?_, ih (r + 1) (by omega), ?_⟩
    · refine List.Nodup.map_on ?_ (List.Nodup.filter _ List.nodup_range)
      intro c hc c' hc' he
      simp only [List.mem_filter, List.mem_range] at hc hc'
      exact (pixelIndex_injective vx vy r c r c' (by omega) (by omega) hc.1 hc'.1 he).2
    · rintro p hp q hq rfl
      obtain ⟨c, h1, _, h3⟩ := (mem_rowPixels vx vy r b p).mp hp
      obtain ⟨k, c', h4, h5, _, h7⟩ := (mem_spritePixels vx vy rest (r + 1) p).mp hq
      have := (pixelIndex_injective vx vy r c (r + 1 + k) c' (by omega) (by omega) h1 h5 (h3 ▸ h7)).1
      omega

/-! ## Fetch and the error entry -/

/-- The fetch: bounds, then alignment, then the big-endian word (20_memory R61, R66, R67). -/
theorem fetch_cases (s : State) :
    (s.pc.toNat > 0xFFF ∧ fetch s = .bounds s.pc) ∨
    (s.pc.toNat = 0xFFF ∧ fetch s = .bounds 0x1000#16) ∨
    (s.pc.toNat < 0xFFF ∧ s.pc.toNat % 2 = 1 ∧ fetch s = .misaligned) ∨
    (s.pc.toNat < 0xFFF ∧ s.pc.toNat % 2 = 0 ∧
      fetch s = .word (wordOfBytes (readByte s s.pc.toNat) (readByte s (s.pc.toNat + 1)))) := by
  have hbit : s.pc.getLsbD 0 = decide (s.pc.toNat % 2 = 1) := by
    rw [BitVec.getLsbD, Nat.testBit_zero]
  unfold fetch
  simp only [Config.instrBytes, Config.memSize]
  by_cases h1 : s.pc.toNat > 0xFFF
  · exact .inl ⟨h1, by rw [if_pos (by omega), if_pos (by omega)]⟩
  by_cases h2 : s.pc.toNat = 0xFFF
  · refine .inr (.inl ⟨h2, ?_⟩)
    rw [if_pos (by omega), if_neg (by omega)]; rfl
  by_cases h3 : s.pc.toNat % 2 = 1
  · exact .inr (.inr (.inl ⟨by omega, h3, by rw [if_neg (by omega), hbit, if_pos (by simpa using h3)]⟩))
  · exact .inr (.inr (.inr ⟨by omega, by omega, by rw [if_neg (by omega), hbit, if_neg (by simpa using h3)]⟩))

/-- The error entry records the error and changes nothing else (60_exceptions R215). -/
theorem raise_raised (e : ErrorKind) (op addr : Word) (s : State) :
    Raised (errorCode e) op addr s (raise e op addr s) := by
  refine ⟨rfl, rfl, rfl, rfl, rfl, fun p hp => ?_⟩
  cases p <;> first | rfl | (intro _; rfl) | exact absurd (by decide) hp

end Sys2Proof.Machine
end

