-- ==== Sys2Proof/Laws/PerInstr.lean ====
section
/-! SUPPORT. Statements made per instruction: the round trip through the encoder and the decoder. -/

namespace Sys2Proof

/- One theorem after another: side by side they would all wait for the decoder's equations at once. -/
set_option Elab.async false

/-- A well-formed instruction's canonical word decodes to it (30_encoding R95 to R100). -/
def Laws.RoundTrip.Statement (i : Instr) : Prop := i.wellFormed = true → decode (encode i) = .instr i

/-! ## The decoder on each format -/

theorem decode_formatA_sys (nnn : Addr12) (h1 : nnn ≠ 0x0E0#12) (h2 : nnn ≠ 0x0EE#12) :
    decode (formatA 0x0#4 nnn) = .instr (.sys nnn) := by
  have hne : ∀ k : Addr12, nnn ≠ k → formatA 0x0#4 nnn ≠ formatA 0x0#4 k := fun k hk he => hk (by
    have := congrArg nnnField he
    rwa [nnnField_formatA, nnnField_formatA] at this)
  have e1 : formatA 0x0#4 nnn ≠ 0x00E0#16 := hne 0x0E0#12 h1
  have e2 : formatA 0x0#4 nnn ≠ 0x00EE#16 := hne 0x0EE#12 h2
  simp only [decode, classField_formatA, BitVec.reduceToNat, decodeClass0, if_neg e1, if_neg e2, nnnField_formatA]


theorem Laws.RoundTrip.sys (nnn : Addr12) : Laws.RoundTrip.Statement (.sys nnn) := by
  intro h
  simp only [Instr.wellFormed, Bool.and_eq_true, bne_iff_ne, ne_eq] at h
  exact decode_formatA_sys nnn h.1 h.2

theorem Laws.RoundTrip.cls : Laws.RoundTrip.Statement .cls := by
  intro _; decide

theorem Laws.RoundTrip.ret : Laws.RoundTrip.Statement .ret := by
  intro _; decide

theorem Laws.RoundTrip.jp (nnn : Addr12) : Laws.RoundTrip.Statement (.jp nnn) := by
  intro _; simp [encode, decode, classField_formatA, nnnField_formatA]

theorem Laws.RoundTrip.call (nnn : Addr12) : Laws.RoundTrip.Statement (.call nnn) := by
  intro _; simp [encode, decode, classField_formatA, nnnField_formatA]

theorem Laws.RoundTrip.seByte (x : Reg) (kk : Byte) : Laws.RoundTrip.Statement (.seByte x kk) := by
  intro _; simp [encode, decode, classField_formatK, xField_formatK, kkField_formatK]

theorem Laws.RoundTrip.sneByte (x : Reg) (kk : Byte) : Laws.RoundTrip.Statement (.sneByte x kk) := by
  intro _; simp [encode, decode, classField_formatK, xField_formatK, kkField_formatK]

theorem Laws.RoundTrip.seReg (x : Reg) (y : Reg) : Laws.RoundTrip.Statement (.seReg x y) := by
  intro _; simp [encode, decode, classField_formatR, xField_formatR, yField_formatR]

theorem Laws.RoundTrip.ldByte (x : Reg) (kk : Byte) : Laws.RoundTrip.Statement (.ldByte x kk) := by
  intro _; simp [encode, decode, classField_formatK, xField_formatK, kkField_formatK]

theorem Laws.RoundTrip.addByte (x : Reg) (kk : Byte) : Laws.RoundTrip.Statement (.addByte x kk) := by
  intro _; simp [encode, decode, classField_formatK, xField_formatK, kkField_formatK]

theorem Laws.RoundTrip.ldReg (x : Reg) (y : Reg) : Laws.RoundTrip.Statement (.ldReg x y) := by
  intro _; simp [encode, decode, classField_formatR, decodeClass8, nField_formatR, xField_formatR, yField_formatR]

theorem Laws.RoundTrip.orReg (x : Reg) (y : Reg) : Laws.RoundTrip.Statement (.orReg x y) := by
  intro _; simp [encode, decode, classField_formatR, decodeClass8, nField_formatR, xField_formatR, yField_formatR]

theorem Laws.RoundTrip.andReg (x : Reg) (y : Reg) : Laws.RoundTrip.Statement (.andReg x y) := by
  intro _; simp [encode, decode, classField_formatR, decodeClass8, nField_formatR, xField_formatR, yField_formatR]

theorem Laws.RoundTrip.xorReg (x : Reg) (y : Reg) : Laws.RoundTrip.Statement (.xorReg x y) := by
  intro _; simp [encode, decode, classField_formatR, decodeClass8, nField_formatR, xField_formatR, yField_formatR]

theorem Laws.RoundTrip.addReg (x : Reg) (y : Reg) : Laws.RoundTrip.Statement (.addReg x y) := by
  intro _; simp [encode, decode, classField_formatR, decodeClass8, nField_formatR, xField_formatR, yField_formatR]

theorem Laws.RoundTrip.subReg (x : Reg) (y : Reg) : Laws.RoundTrip.Statement (.subReg x y) := by
  intro _; simp [encode, decode, classField_formatR, decodeClass8, nField_formatR, xField_formatR, yField_formatR]

theorem Laws.RoundTrip.shr (x : Reg) (y : Reg) : Laws.RoundTrip.Statement (.shr x y) := by
  intro _; simp [encode, decode, classField_formatR, decodeClass8, nField_formatR, xField_formatR, yField_formatR]

theorem Laws.RoundTrip.subnReg (x : Reg) (y : Reg) : Laws.RoundTrip.Statement (.subnReg x y) := by
  intro _; simp [encode, decode, classField_formatR, decodeClass8, nField_formatR, xField_formatR, yField_formatR]

theorem Laws.RoundTrip.shl (x : Reg) (y : Reg) : Laws.RoundTrip.Statement (.shl x y) := by
  intro _; simp [encode, decode, classField_formatR, decodeClass8, nField_formatR, xField_formatR, yField_formatR]

theorem Laws.RoundTrip.sneReg (x : Reg) (y : Reg) : Laws.RoundTrip.Statement (.sneReg x y) := by
  intro _; simp [encode, decode, classField_formatR, xField_formatR, yField_formatR]

theorem Laws.RoundTrip.ldI (nnn : Addr12) : Laws.RoundTrip.Statement (.ldI nnn) := by
  intro _; simp [encode, decode, classField_formatA, nnnField_formatA]

theorem Laws.RoundTrip.jpV0 (nnn : Addr12) : Laws.RoundTrip.Statement (.jpV0 nnn) := by
  intro _; simp [encode, decode, classField_formatA, nnnField_formatA]

theorem Laws.RoundTrip.rnd (x : Reg) (kk : Byte) : Laws.RoundTrip.Statement (.rnd x kk) := by
  intro _; simp [encode, decode, classField_formatK, xField_formatK, kkField_formatK]

theorem Laws.RoundTrip.drw (x : Reg) (y : Reg) (n : Nibble) : Laws.RoundTrip.Statement (.drw x y n) := by
  intro _; simp [encode, decode, classField_formatR, xField_formatR, yField_formatR, nField_formatR]

theorem Laws.RoundTrip.skp (x : Reg) : Laws.RoundTrip.Statement (.skp x) := by
  intro _; simp [encode, decode, classField_formatK, decodeClassE, kkField_formatK, xField_formatK]

theorem Laws.RoundTrip.sknp (x : Reg) : Laws.RoundTrip.Statement (.sknp x) := by
  intro _; simp [encode, decode, classField_formatK, decodeClassE, kkField_formatK, xField_formatK]

theorem Laws.RoundTrip.ldVxDt (x : Reg) : Laws.RoundTrip.Statement (.ldVxDt x) := by
  intro _; simp [encode, decode, classField_formatK, decodeClassF, kkField_formatK, xField_formatK]

theorem Laws.RoundTrip.ldVxK (x : Reg) : Laws.RoundTrip.Statement (.ldVxK x) := by
  intro _; simp [encode, decode, classField_formatK, decodeClassF, kkField_formatK, xField_formatK]

theorem Laws.RoundTrip.ldDtVx (x : Reg) : Laws.RoundTrip.Statement (.ldDtVx x) := by
  intro _; simp [encode, decode, classField_formatK, decodeClassF, kkField_formatK, xField_formatK]

theorem Laws.RoundTrip.ldStVx (x : Reg) : Laws.RoundTrip.Statement (.ldStVx x) := by
  intro _; simp [encode, decode, classField_formatK, decodeClassF, kkField_formatK, xField_formatK]

theorem Laws.RoundTrip.addI (x : Reg) : Laws.RoundTrip.Statement (.addI x) := by
  intro _; simp [encode, decode, classField_formatK, decodeClassF, kkField_formatK, xField_formatK]

theorem Laws.RoundTrip.ldF (x : Reg) : Laws.RoundTrip.Statement (.ldF x) := by
  intro _; simp [encode, decode, classField_formatK, decodeClassF, kkField_formatK, xField_formatK]

theorem Laws.RoundTrip.ldB (x : Reg) : Laws.RoundTrip.Statement (.ldB x) := by
  intro _; simp [encode, decode, classField_formatK, decodeClassF, kkField_formatK, xField_formatK]

theorem Laws.RoundTrip.ldMemVx (x : Reg) : Laws.RoundTrip.Statement (.ldMemVx x) := by
  intro _; simp [encode, decode, classField_formatK, decodeClassF, kkField_formatK, xField_formatK]

theorem Laws.RoundTrip.ldVxMem (x : Reg) : Laws.RoundTrip.Statement (.ldVxMem x) := by
  intro _; simp [encode, decode, classField_formatK, decodeClassF, kkField_formatK, xField_formatK]

end Sys2Proof
end

