-- ==== Sys2Proof/Laws/Step.lean ====
section
/-! SUPPORT. Everything the Core's step and the next event can do, said once. -/

namespace Sys2Proof.Machine

/-- The Core's step (30_encoding R90, 60_exceptions R214): nothing while halted, one of three errors, or the decoded
instruction. -/
theorem coreStep_cases (s : State) :
    (s.halted = true ∧ coreStep s = .next s) ∨
    (s.halted = false ∧ s.pc.toNat > 0xFFF ∧ coreStep s = .next (raise .fetchBounds 0x0000#16 s.pc s)) ∨
    (s.halted = false ∧ s.pc.toNat = 0xFFF ∧ coreStep s = .next (raise .fetchBounds 0x0000#16 0x1000#16 s)) ∨
    (s.halted = false ∧ s.pc.toNat < 0xFFF ∧ s.pc.toNat % 2 = 1 ∧
      coreStep s = .next (raise .fetchMisaligned 0x0000#16 s.pc s)) ∨
    (s.halted = false ∧ s.pc.toNat < 0xFFF ∧ s.pc.toNat % 2 = 0 ∧
      ∃ op, op = wordOfBytes (readByte s s.pc.toNat) (readByte s (s.pc.toNat + 1)) ∧
        ((∃ why, decode op = .rejected why ∧ coreStep s = .next (raise .decodeError op 0x0000#16 s)) ∨
         (∃ i, decode op = .instr i ∧ coreStep s = exec i s))) := by
  by_cases hh : s.halted = true
  · exact .inl ⟨hh, if_pos hh⟩
  have hf : s.halted = false := by simpa using hh
  have hs : coreStep s = match fetch s with
      | .bounds addr => .next (raise .fetchBounds 0x0000#16 addr s)
      | .misaligned => .next (raise .fetchMisaligned 0x0000#16 s.pc s)
      | .word op =>
        match decode op with
        | .rejected _ => .next (raise .decodeError op 0x0000#16 s)
        | .instr i => exec i s := if_neg hh
  refine .inr ?_
  rcases fetch_cases s with ⟨h1, h⟩ | ⟨h1, h⟩ | ⟨h1, h2, h⟩ | ⟨h1, h2, h⟩
  · exact .inl ⟨hf, h1, by rw [hs, h]⟩
  · exact .inr (.inl ⟨hf, h1, by rw [hs, h]⟩)
  · exact .inr (.inr (.inl ⟨hf, h1, h2, by rw [hs, h]⟩))
  · refine .inr (.inr (.inr ⟨hf, h1, h2, _, rfl, ?_⟩))
    rw [h] at hs
    cases hd : decode (wordOfBytes (readByte s s.pc.toNat) (readByte s (s.pc.toNat + 1))) with
    | rejected why => exact .inl ⟨why, rfl, by rw [hs]; simp only [hd]⟩
    | instr i => exact .inr ⟨i, rfl, by rw [hs]; simp only [hd]⟩

/-- Whose turn it is: the head of the schedule, and after its end the Core, or the next event of the endless
interleaving (00_scope R9). -/
theorem upcoming_cases (s : State) :
    (∃ e rest, s.schedule = e :: rest ∧ upcoming s = (e, { s with schedule := rest })) ∨
    (s.schedule = [] ∧ s.agents = none ∧ upcoming s = (.step, s)) ∨
    (∃ k, s.schedule = [] ∧ s.agents = some k ∧ upcoming s = (Config.eventAt k, { s with agents := some (k + 1) })) := by
  unfold upcoming
  cases h : s.schedule with
  | cons e rest => exact .inl ⟨e, rest, rfl, rfl⟩
  | nil =>
    cases ha : s.agents with
    | none => exact .inr (.inl ⟨rfl, rfl, rfl⟩)
    | some k => exact .inr (.inr ⟨k, rfl, rfl, rfl⟩)

/-- Some event is next. -/
theorem eventMoves_upcoming (s : State) : EventMoves (upcoming s).1 s (upcoming s).2 := rfl

/-- The state an event is performed on differs in nothing but whose turn it is. -/
theorem EventMoves.keeps {e : Event} {s s0 : State} (h : EventMoves e s s0) :
    ∃ l a, s0 = { s with schedule := l, agents := a } := by
  rcases upcoming_cases s with ⟨_, rest, _, hu⟩ | ⟨_, _, hu⟩ | ⟨k, _, _, hu⟩ <;> cases h.symm.trans hu
  · exact ⟨rest, s.agents, rfl⟩
  · exact ⟨s.schedule, s.agents, rfl⟩
  · exact ⟨s.schedule, some (k + 1), rfl⟩

/-- A step performs the event that is next. -/
theorem EventMoves.step_eq {e : Event} {s s0 : State} (h : EventMoves e s s0) : step s = perform e s0 := by
  unfold step nextEvent; rw [h]

/-- The default font over the memory of an empty ROM lists nothing. -/
theorem writeList_defaultFont : Memory.writeList [] Config.fontBase defaultFont.toList = [] := by decide +kernel

/-- `State.reset` is what `Reset` with an empty ROM leaves of it (70_reset_and_hazards R240). -/
theorem reset_eq_resetWith : resetWith [] State.reset = State.reset := by
  have h : resetWith [] State.reset = initialise [] State.reset := if_neg (by decide)
  have hm : Memory.ofImage Config.progBase [] = [] := rfl
  have hf : State.reset.font = defaultFont := rfl
  rw [h, initialise, hm, hf, writeList_defaultFont]; rfl

end Sys2Proof.Machine
end

