-- ==== Sys2Proof/Tests/Slice0.lean ====
section
/-! SUPPORT. The model's own tests: well-formedness, decoding of a written-out word for every constructor, one or two
steps per instruction with results from spec/95_test_vectors.md, the events, and a witness for the hypotheses of every
obligation that has some. -/

namespace Sys2Proof.Machine.Tests

/- One theorem after another: side by side they would all evaluate the same definitions at once. -/
set_option Elab.async false

/-! ## Well-formedness (30_encoding R96): the check refuses the two words that are not SYS -/

theorem test_wellFormed_refuses_sys_0E0 : (Instr.sys 0x0E0#12).wellFormed = false := by decide
theorem test_wellFormed_refuses_sys_0EE : (Instr.sys 0x0EE#12).wellFormed = false := by decide
theorem test_wellFormed_accepts_sys_0E1 : (Instr.sys 0x0E1#12).wellFormed = true := by decide
theorem test_wellFormed_accepts_drw : (Instr.drw 15 15 15#4).wellFormed = true := by decide

/-! ## Sizes that depend on each other (00_scope R6, R11) -/

theorem test_config_rom : Config.progBase = Config.reservedTop + 1 ∧ Config.romMax = Config.memSize - Config.progBase := by
  decide
theorem test_config_font : Config.fontLen = 16 * Config.glyphBytes ∧ Config.numPixels = Config.dispW * Config.dispH := by
  decide

/-! ## Decoding: a word per constructor, its bits written out from 30_encoding R95 -/

theorem test_decode_sys : decode 0b0000000100100011#16 = .instr (.sys 0x123#12) := by decide
theorem test_decode_cls : decode 0b0000000011100000#16 = .instr .cls := by decide
theorem test_decode_ret : decode 0b0000000011101110#16 = .instr .ret := by decide
theorem test_decode_jp : decode 0b0001001000101000#16 = .instr (.jp 0x228#12) := by decide
theorem test_decode_call : decode 0b0010001100000000#16 = .instr (.call 0x300#12) := by decide
theorem test_decode_seByte : decode 0b0011101001000010#16 = .instr (.seByte 10 0x42#8) := by decide
theorem test_decode_sneByte : decode 0b0100101001000010#16 = .instr (.sneByte 10 0x42#8) := by decide
theorem test_decode_seReg : decode 0b0101000100100111#16 = .instr (.seReg 1 2) := by decide
theorem test_decode_ldByte : decode 0b0110001100101010#16 = .instr (.ldByte 3 0x2A#8) := by decide
theorem test_decode_addByte : decode 0b0111000100000101#16 = .instr (.addByte 1 0x05#8) := by decide
theorem test_decode_ldReg : decode 0b1000000100100000#16 = .instr (.ldReg 1 2) := by decide
theorem test_decode_orReg : decode 0b1000000100100001#16 = .instr (.orReg 1 2) := by decide
theorem test_decode_andReg : decode 0b1000000100100010#16 = .instr (.andReg 1 2) := by decide
theorem test_decode_xorReg : decode 0b1000000100100011#16 = .instr (.xorReg 1 2) := by decide
theorem test_decode_addReg : decode 0b1000000000010100#16 = .instr (.addReg 0 1) := by decide
theorem test_decode_subReg : decode 0b1000000000010101#16 = .instr (.subReg 0 1) := by decide
theorem test_decode_shr : decode 0b1000000000010110#16 = .instr (.shr 0 1) := by decide
theorem test_decode_subnReg : decode 0b1000000000010111#16 = .instr (.subnReg 0 1) := by decide
theorem test_decode_shl : decode 0b1000000000011110#16 = .instr (.shl 0 1) := by decide
theorem test_decode_sneReg : decode 0b1001000100101111#16 = .instr (.sneReg 1 2) := by decide
theorem test_decode_ldI : decode 0b1010001100000000#16 = .instr (.ldI 0x300#12) := by decide
theorem test_decode_jpV0 : decode 0b1011001100000000#16 = .instr (.jpV0 0x300#12) := by decide
theorem test_decode_rnd : decode 0b1100001011110000#16 = .instr (.rnd 2 0xF0#8) := by decide
theorem test_decode_drw : decode 0b1101001101110101#16 = .instr (.drw 3 7 5#4) := by decide
theorem test_decode_skp : decode 0b1110000110011110#16 = .instr (.skp 1) := by decide
theorem test_decode_sknp : decode 0b1110000110100001#16 = .instr (.sknp 1) := by decide
theorem test_decode_ldVxDt : decode 0b1111001000000111#16 = .instr (.ldVxDt 2) := by decide
theorem test_decode_ldVxK : decode 0b1111000100001010#16 = .instr (.ldVxK 1) := by decide
theorem test_decode_ldDtVx : decode 0b1111000000010101#16 = .instr (.ldDtVx 0) := by decide
theorem test_decode_ldStVx : decode 0b1111001100011000#16 = .instr (.ldStVx 3) := by decide
theorem test_decode_addI : decode 0b1111001000011110#16 = .instr (.addI 2) := by decide
theorem test_decode_ldF : decode 0b1111001000101001#16 = .instr (.ldF 2) := by decide
theorem test_decode_ldB : decode 0b1111000000110011#16 = .instr (.ldB 0) := by decide
theorem test_decode_ldMemVx : decode 0b1111001101010101#16 = .instr (.ldMemVx 3) := by decide
theorem test_decode_ldVxMem : decode 0b1111001101100101#16 = .instr (.ldVxMem 3) := by decide

/- Illegal words (95 section 2: 8008, 801F, E39F, F1FF) and the bytes in memory order (20_memory R61). -/
theorem test_decode_8008 : decode 0x8008#16 = .rejected .class8Selector := by decide
theorem test_decode_801F : decode 0x801F#16 = .rejected .class8Selector := by decide
theorem test_decode_E39F : decode 0xE39F#16 = .rejected .classESelector := by decide
theorem test_decode_F1FF : decode 0xF1FF#16 = .rejected .classFSelector := by decide
theorem test_decode_bytes_big_endian : decodeBytes [0x63#8, 0x2A#8, 0x00#8] = (.instr (.ldByte 3 0x2A#8), [0x00#8]) := by
  decide
theorem test_decodeTableWord : decodeTableWord 16 0x632A = some (.ldByte 3 0x2A#8) := by decide
theorem test_encode_drw : encode (.drw 3 7 5#4) = 0xD375#16 := by decide

/-! ## Single steps: the word of a vector of 95_test_vectors at 0x200 after reset -/

/-- The state after reset with the word where the next step fetches. -/
def at200 (w : Nat) : State := State.reset.withFetchWord 16 w

/-- What a step leaves, seen through `f`. -/
def after {α : Type} (s : State) (f : State → α) : Option α :=
  match step s with
  | .next t => some (f t)
  | .fault _ => none
  | .refused _ => none

/-- The error registers and `pc`. -/
structure Errors where
  halted : Bool
  code : BitVec 4
  opcode : Word
  failingPc : Word
  addr : Word
  pc : Word
deriving DecidableEq, Repr

/-- The error registers and `pc` of a state. -/
def errors (s : State) : Errors := ⟨s.halted, s.errCode, s.errOpcode, s.errPc, s.errAddr, s.pc⟩

theorem test_ldByte : after (at200 0x6A42) (fun t => (readV t 10, t.pc)) = some (0x42#8, 0x202#16) := by decide
theorem test_addByte_wraps_without_flag :
    after (writeV 1 0xFE#8 (at200 0x7105)) (fun t => (readV t 1, readV t 15, t.pc)) =
      some (0x03#8, 0x00#8, 0x202#16) := by decide
theorem test_ldReg : after (writeV 2 0x7B#8 (at200 0x8120)) (fun t => (readV t 1, t.pc)) = some (0x7B#8, 0x202#16) := by
  decide
theorem test_orReg_keeps_flag :
    after (writeV 1 0xF0#8 (writeV 2 0x0F#8 (writeV 15 0x55#8 (at200 0x8121)))) (fun t => (readV t 1, readV t 15)) =
      some (0xFF#8, 0x55#8) := by decide
theorem test_andReg :
    after (writeV 1 0xF3#8 (writeV 2 0x3C#8 (at200 0x8122))) (fun t => readV t 1) = some 0x30#8 := by decide
theorem test_xorReg :
    after (writeV 1 0xF3#8 (writeV 2 0x3C#8 (at200 0x8123))) (fun t => readV t 1) = some 0xCF#8 := by decide
theorem test_addReg_carry :
    after (writeV 0 0xC8#8 (writeV 1 0x64#8 (at200 0x8014))) (fun t => (readV t 0, readV t 15)) =
      some (0x2C#8, 0x01#8) := by decide
theorem test_addReg_into_flag_register :
    after (writeV 15 0xC8#8 (writeV 1 0x64#8 (at200 0x8F14))) (fun t => readV t 15) = some 0x2C#8 := by decide
theorem test_subReg_borrow :
    after (writeV 0 0x05#8 (writeV 1 0x0A#8 (writeV 15 0x01#8 (at200 0x8015)))) (fun t => (readV t 0, readV t 15)) =
      some (0xFB#8, 0x00#8) := by decide
theorem test_subReg_equal_is_strict :
    after (writeV 0 0x07#8 (writeV 1 0x07#8 (writeV 15 0x01#8 (at200 0x8015)))) (fun t => (readV t 0, readV t 15)) =
      some (0x00#8, 0x00#8) := by decide
theorem test_shr_ignores_y :
    after (writeV 0 0x02#8 (writeV 1 0xFF#8 (at200 0x8016))) (fun t => (readV t 0, readV t 15, readV t 1)) =
      some (0x01#8, 0x00#8, 0xFF#8) := by decide
theorem test_shr_low_bit :
    after (writeV 0 0x03#8 (at200 0x8006)) (fun t => (readV t 0, readV t 15)) = some (0x01#8, 0x01#8) := by decide
theorem test_subnReg :
    after (writeV 0 0x05#8 (writeV 1 0x0A#8 (at200 0x8017))) (fun t => (readV t 0, readV t 15)) =
      some (0x05#8, 0x01#8) := by decide
theorem test_shl_high_bit :
    after (writeV 0 0x81#8 (at200 0x800E)) (fun t => (readV t 0, readV t 15)) = some (0x02#8, 0x01#8) := by decide
theorem test_shl_of_flag_register : after (writeV 15 0xC0#8 (at200 0x8FFE)) (fun t => readV t 15) = some 0x80#8 := by
  decide
/- 40_alu R133's example, under both readings of the mask. -/
theorem test_rnd_dest : maskedDraw .dest 0xA7#8 0x0F#8 0xF0#8 = 0x07#8 := by decide
theorem test_rnd_imm : maskedDraw .imm 0xA7#8 0x0F#8 0xF0#8 = 0xA0#8 := by decide

theorem test_cls :
    after { at200 0x00E0 with fb := 1#2048 } (fun t => (pixelAt t 0 0, t.drawReady, t.pc)) =
      some (false, true, 0x202#16) := by decide +kernel
/- Glyph "1" at column 63, row 30 (41_display R151): the eight pixels, and two neighbours that stay clear. -/
theorem test_drw_wraps_both_axes :
    after (writeV 0 0x3F#8 (writeV 1 0x1E#8 (writeI 0x005#16 (at200 0xD015))))
      (fun t => (pixelAt t 1 30 && pixelAt t 0 31 && pixelAt t 1 31 && pixelAt t 1 0 && pixelAt t 1 1 &&
        pixelAt t 0 2 && pixelAt t 1 2 && pixelAt t 2 2, pixelAt t 63 30 || pixelAt t 2 31, readV t 15)) =
      some (true, false, 0x00#8) := by decide +kernel
theorem test_drw_past_memory_raises :
    after (writeV 15 0x07#8 (writeI 0xFFF#16 (at200 0xD012))) (fun t => (errors t, readV t 15, t.drawReady)) =
      some (⟨true, 5#4, 0xD012#16, 0x200#16, 0x1000#16, 0x200#16⟩, 0x07#8, false) := by decide

theorem test_sys_raises : after (at200 0x0123) errors = some ⟨true, 2#4, 0x0123#16, 0x200#16, 0x0000#16, 0x200#16⟩ := by
  decide
theorem test_jp : after (at200 0x1234) (fun t => t.pc) = some 0x234#16 := by decide
theorem test_call :
    after (at200 0x2300) (fun t => (t.pc, t.sp, t.stack[1])) = some (0x300#16, 1, 0x202#16) := by decide
theorem test_call_at_47_overflows :
    after { at200 0x2300 with sp := 47 } (fun t => (errors t, t.sp)) =
      some (⟨true, 3#4, 0x2300#16, 0x200#16, 0x0000#16, 0x200#16⟩, 47) := by decide
theorem test_ret :
    after { at200 0x00EE with sp := 1, stack := State.reset.stack.set 1 0x206#16 } (fun t => (t.pc, t.sp)) =
      some (0x206#16, 0) := by decide
theorem test_ret_at_0_underflows :
    after (at200 0x00EE) errors = some ⟨true, 4#4, 0x00EE#16, 0x200#16, 0x0000#16, 0x200#16⟩ := by decide
theorem test_jpV0_not_reduced : after (writeV 0 0xFF#8 (at200 0xBFFF)) (fun t => t.pc) = some 0x10FE#16 := by decide
theorem test_seByte_taken : after (writeV 10 0x42#8 (at200 0x3A42)) (fun t => t.pc) = some 0x204#16 := by decide
theorem test_sneByte_not_taken : after (writeV 10 0x42#8 (at200 0x4A42)) (fun t => t.pc) = some 0x202#16 := by decide
theorem test_seReg_not_taken :
    after (writeV 1 0x07#8 (writeV 2 0x08#8 (at200 0x5120))) (fun t => t.pc) = some 0x202#16 := by decide
theorem test_sneReg_low_nibble_ignored :
    after (writeV 1 0x07#8 (writeV 2 0x08#8 (at200 0x912F))) (fun t => t.pc) = some 0x204#16 := by decide
theorem test_skp_taken : after { writeV 3 0x07#8 (at200 0xE39E) with key := 0x80#16 } (fun t => t.pc) = some 0x204#16 := by
  decide
theorem test_skp_above_15_raises :
    after (writeV 3 0x10#8 (at200 0xE39E)) errors =
      some ⟨true, 8#4, 0xE39E#16, 0x200#16, 0x0010#16, 0x200#16⟩ := by decide
theorem test_sknp_taken_with_keys_up : after (writeV 3 0x07#8 (at200 0xE3A1)) (fun t => t.pc) = some 0x204#16 := by decide

theorem test_ldVxDt : after { at200 0xF207 with DT := 0x3A#8 } (fun t => (readV t 2, t.DT)) = some (0x3A#8, 0x3A#8) := by
  decide
theorem test_ldDtVx : after (writeV 0 0x3C#8 (at200 0xF015)) (fun t => (t.DT, t.ST)) = some (0x3C#8, 0x00#8) := by decide
theorem test_ldStVx : after (writeV 3 0x05#8 (at200 0xF318)) (fun t => (t.ST, t.DT)) = some (0x05#8, 0x00#8) := by decide
theorem test_ldVxK_waits : after (at200 0xF10A) (fun t => t) = some (at200 0xF10A) := by decide +kernel
theorem test_ldVxK_takes_the_key :
    after { at200 0xF10A with key := 0x80#16 } (fun t => (readV t 1, t.pc)) = some (0x07#8, 0x202#16) := by decide

theorem test_ldI : after (at200 0xA300) (fun t => (t.I, t.pc)) = some (0x300#16, 0x202#16) := by decide
theorem test_addI_wraps :
    after (writeV 2 0x02#8 (writeI 0xFFF#16 (at200 0xF21E))) (fun t => (t.I, readV t 15)) = some (0x001#16, 0x00#8) := by
  decide
theorem test_ldF_whole_byte : after (writeV 2 0xFF#8 (at200 0xF229)) (fun t => t.I) = some 0x4FB#16 := by decide
theorem test_ldB_last_legal_base :
    after (writeV 0 0xFF#8 (writeI 0xFFD#16 (at200 0xF033)))
      (fun t => (readByte t 0xFFD, readByte t 0xFFE, readByte t 0xFFF, t.I)) =
      some (0x02#8, 0x05#8, 0x05#8, 0xFFD#16) := by decide
theorem test_ldB_no_partial_write :
    after (writeV 0 0xFF#8 (writeI 0xFFE#16 (at200 0xF033))) (fun t => (errors t, readByte t 0xFFE, readByte t 0xFFF)) =
      some (⟨true, 5#4, 0xF033#16, 0x200#16, 0x1000#16, 0x200#16⟩, 0x00#8, 0x00#8) := by decide
theorem test_ldMemVx_inclusive :
    after (writeV 0 0x11#8 (writeV 1 0x22#8 (writeV 2 0x33#8 (writeI 0x300#16 (at200 0xF155)))))
      (fun t => (readByte t 0x300, readByte t 0x301, readByte t 0x302, t.I)) =
      some (0x11#8, 0x22#8, 0x00#8, 0x300#16) := by decide
theorem test_ldVxMem_font :
    after (at200 0xF165) (fun t => (readV t 0, readV t 1, readV t 2)) = some (0xF0#8, 0x90#8, 0x00#8) := by decide

/-! ## Fetch errors and the halted core (95 section 2.3) -/

theorem test_fetch_misaligned :
    after { State.reset with pc := 0x201#16 } errors = some ⟨true, 7#4, 0x0000#16, 0x201#16, 0x201#16, 0x201#16⟩ := by
  decide
theorem test_fetch_bounds_before_alignment :
    after { State.reset with pc := 0xFFF#16 } errors = some ⟨true, 6#4, 0x0000#16, 0xFFF#16, 0x1000#16, 0xFFF#16⟩ := by
  decide
theorem test_fetch_above_memory :
    after { State.reset with pc := 0x10FE#16 } errors =
      some ⟨true, 6#4, 0x0000#16, 0x10FE#16, 0x10FE#16, 0x10FE#16⟩ := by decide
theorem test_decode_error :
    after (at200 0x8008) errors = some ⟨true, 2#4, 0x8008#16, 0x200#16, 0x0000#16, 0x200#16⟩ := by decide

/-! ## Events (95 sections 2.4 and 2.6) -/

theorem test_timerTick :
    after { State.reset with DT := 0x02#8, schedule := [.timerTick] } (fun t => (t.DT, t.ST, t.pc)) =
      some (0x01#8, 0x00#8, 0x200#16) := by decide
theorem test_timerTick_halted :
    after { State.reset with halted := true, DT := 0x05#8, schedule := [.timerTick] } (fun t => t.DT) = some 0x05#8 := by
  decide
theorem test_keySet_while_halted :
    after { State.reset with halted := true, key := 0x80#16, schedule := [.keySet 7 false] } (fun t => t.key) =
      some 0x0000#16 := by decide
theorem test_drawAck :
    after { State.reset with drawReady := true, schedule := [.drawAck] } (fun t => t.drawReady) = some false := by decide
theorem test_reset_loads_rom :
    after { State.reset with pc := 0x300#16, schedule := [.reset [0x12#8, 0x00#8]] }
      (fun t => (readByte t 0x200, readByte t 0x201, readByte t 0x000, readByte t 0x04F, t.pc)) =
      some (0x12#8, 0x00#8, 0xF0#8, 0x80#8, 0x200#16) := by decide +kernel
/- The parameter FONT (00_scope R7): a machine with another font. -/
theorem test_reset_writes_the_machines_font :
    after { State.reset with font := Vector.replicate 80 0x55#8, schedule := [.reset [0x12#8]] }
      (fun t => (readByte t 0x000, readByte t 0x04F, readByte t 0x050, readByte t 0x200)) =
      some (0x55#8, 0x55#8, 0x00#8, 0x12#8) := by decide +kernel
theorem test_reset_refuses_3585_bytes :
    after { State.reset with schedule := [.reset (List.replicate 3585 0xFF#8)] } (fun t => (errors t, readByte t 0x200)) =
      some (⟨true, 1#4, 0x0000#16, 0x0000#16, 0x0000#16, 0x200#16⟩, 0x00#8) := by decide +kernel

/-! ## Witnesses: a state and operands that meet the hypotheses of each obligation that has some -/

theorem witness_StepRunsDecodedInstruction :
    CoreMoves (at200 0x6A42) (at200 0x6A42) ∧ (at200 0x6A42).halted = false ∧ (at200 0x6A42).pc.toNat < 0xFFF ∧
      (at200 0x6A42).pc.toNat % 2 = 0 ∧
      decode (wordOfBytes (readByte (at200 0x6A42) 0x200) (readByte (at200 0x6A42) 0x201)) =
        .instr (.ldByte 10 0x42#8) :=
  ⟨rfl, by decide, by decide, by decide, by decide⟩

/-- The same word with a step on the schedule. -/
def scheduled : State := { at200 0x6A42 with schedule := [.step, .timerTick] }

theorem witness_StepRunsDecodedInstruction_scheduled :
    CoreMoves scheduled { scheduled with schedule := [.timerTick] } ∧ scheduled.halted = false ∧
      scheduled.pc.toNat < 0xFFF ∧ scheduled.pc.toNat % 2 = 0 ∧
      decode (wordOfBytes (readByte scheduled 0x200) (readByte scheduled 0x201)) = .instr (.ldByte 10 0x42#8) :=
  ⟨rfl, by decide, by decide, by decide, by decide⟩

/-- A core at a given `pc`, its step next. -/
def atPc (w : Word) : State := { State.reset with pc := w }

theorem witness_BadFetchAddressRaises_bounds :
    CoreMoves (atPc 0xFFF#16) (atPc 0xFFF#16) ∧ (atPc 0xFFF#16).halted = false ∧ (atPc 0xFFF#16).pc.toNat ≥ 0xFFF :=
  ⟨rfl, rfl, by decide⟩
theorem witness_BadFetchAddressRaises_above :
    CoreMoves (atPc 0x1000#16) (atPc 0x1000#16) ∧ (atPc 0x1000#16).halted = false ∧ (atPc 0x1000#16).pc.toNat > 0xFFF :=
  ⟨rfl, rfl, by decide⟩
theorem witness_BadFetchAddressRaises_odd :
    CoreMoves (atPc 0xFFD#16) (atPc 0xFFD#16) ∧ (atPc 0xFFD#16).halted = false ∧ (atPc 0xFFD#16).pc.toNat < 0xFFF ∧
      (atPc 0xFFD#16).pc.toNat % 2 = 1 :=
  ⟨rfl, rfl, by decide, by decide⟩
theorem witness_UndecodedWordRaises :
    CoreMoves (at200 0x8008) (at200 0x8008) ∧ (at200 0x8008).halted = false ∧ (at200 0x8008).pc.toNat < 0xFFF ∧
      (at200 0x8008).pc.toNat % 2 = 0 ∧
      decode (wordOfBytes (readByte (at200 0x8008) 0x200) (readByte (at200 0x8008) 0x201)) =
        .rejected .class8Selector :=
  ⟨rfl, by decide, by decide, by decide, by decide⟩

/-- A halted core. -/
def stopped : State := { State.reset with halted := true, errCode := 2#4 }

theorem witness_HaltIsStickyUntilReset_core : CoreMoves stopped stopped ∧ stopped.halted = true := ⟨rfl, rfl⟩
theorem witness_StepAlwaysAnswersNext :
    ({ State.reset with agents := some 0 } : State).schedule = [] ∧
      ({ State.reset with agents := some 0 } : State).agents = some 0 := ⟨rfl, rfl⟩
theorem witness_PlacedWordRunsNext : decodeTableWord 16 0xF00A = some (.ldVxK 0) := by decide
theorem witness_DecodeOfEncode : (Instr.sys 0xFFF#12).wellFormed = true := by decide
theorem witness_EncodeOfDecode : decode 0x5121#16 = .instr (.seReg 1 2) := by decide
theorem witness_flag_clause : (0 : Reg) ≠ 15 := by decide
theorem witness_DrawFlipsCoveredPixels :
    (15#4 : Nibble).toNat = 0 ∨ (writeI 0xFF1#16 State.reset).I.toNat + (15#4 : Nibble).toNat ≤ 0x1000 := by decide
/- A covered pixel that is set, and one that is not: the font's first byte at the origin. -/
theorem witness_DrawFlipsCoveredPixels_collision :
    Covered { State.reset with fb := 1#2048 } 0#8 0#8 1 0 0 ∧ pixelAt { State.reset with fb := 1#2048 } 0 0 = true :=
  ⟨⟨0, 0, by decide, by decide, by decide, by decide, by decide⟩, by decide +kernel⟩
theorem witness_DrawFlipsCoveredPixels_no_collision :
    ∀ col row, Covered State.reset 0#8 0#8 1 col row → pixelAt State.reset col row = false :=
  fun _ _ _ => BitVec.getLsbD_zero
/- One row of the font at the origin (n = 1): nothing set under it, a pixel set elsewhere. -/
theorem witness_DrawTwiceErases :
    ∃ t, exec (.drw 0 0 1#4) { State.reset with fb := 0x10#2048 } = .next t ∧ readV t 0 = readV State.reset 0 ∧
      (State.reset.I.toNat + (1#4 : Nibble).toNat ≤ 0x1000) ∧ Covered State.reset 0#8 0#8 1 0 0 ∧
      ∀ col row, Covered State.reset 0#8 0#8 1 col row → pixelAt { State.reset with fb := 0x10#2048 } col row = false := by
  refine ⟨_, rfl, by decide, by decide, ⟨0, 0, by decide, by decide, by decide, by decide, by decide⟩, ?_⟩
  rintro col row ⟨r, c, hr, hc, hb, rfl, rfl⟩
  obtain rfl : r = 0 := by omega
  revert hb; revert c; decide +kernel
/- A sprite without a set bit: n = 0. -/
theorem witness_DrawTwiceErases_empty : ∀ col row, ¬Covered State.reset 0#8 0#8 0 col row :=
  fun _ _ h => by obtain ⟨_, _, h, _⟩ := h; exact absurd h (Nat.not_lt_zero _)
theorem witness_DrawPastMemoryRaises :
    (15#4 : Nibble).toNat ≠ 0 ∧ (writeI 0xFF2#16 State.reset).I.toNat + (15#4 : Nibble).toNat > 0x1000 := by decide
theorem witness_CallPushesReturnAddress : ({ State.reset with sp := 46 } : State).sp.val < 47 := by decide
theorem witness_ReturnPopsIntoPc : ({ State.reset with sp := 1 } : State).sp.val > 0 := by decide
theorem witness_CallAndReturnTrapAtStackEnds :
    ({ State.reset with sp := 47 } : State).sp.val = 47 ∧ State.reset.sp.val = 0 := by decide
theorem witness_CallThenReturnComesBack : State.reset.sp.val < 47 := by decide
theorem witness_KeySkipsSampleTheKey : (readV (writeV 3 15#8 State.reset) 3).toNat ≤ 15 := by decide
theorem witness_KeySkipsTrapAboveFifteen : (readV (writeV 3 16#8 State.reset) 3).toNat > 15 := by decide
theorem witness_WaitForKeyHoldsWithoutKey : ∀ k, k < 16 → keyDown State.reset k = false := by decide
theorem witness_WaitForKeyTakesAPressedKey :
    15 < 16 ∧ keyDown { State.reset with key := 0x8000#16 } 15 = true := by decide
theorem witness_BcdStoresThreeDigits : (writeI 0xFFD#16 State.reset).I.toNat + 2 ≤ 0xFFF := by decide
theorem witness_BcdStoresThreeDigits_past : (writeI 0xFFE#16 State.reset).I.toNat + 2 > 0xFFF := by decide
theorem witness_RegisterDumpStoresRun : (writeI 0xFF0#16 State.reset).I.toNat + (15 : Reg).val ≤ 0xFFF := by decide
theorem witness_RegisterDumpStoresRun_past : (writeI 0xFF1#16 State.reset).I.toNat + (15 : Reg).val > 0xFFF := by decide
theorem witness_RegisterLoadReadsRun : (writeI 0xFFF#16 State.reset).I.toNat + (0 : Reg).val ≤ 0xFFF := by decide
theorem witness_RegisterLoadReadsRun_past : (writeI 0xFFF#16 State.reset).I.toNat + (1 : Reg).val > 0xFFF := by decide
theorem witness_DumpThenLoadRestores :
    State.reset.I.toNat + (3 : Reg).val ≤ 0xFFF ∧
      ∃ t, exec (.ldMemVx 3) State.reset = .next t ∧ ∃ u : State, u.mem = t.mem ∧ u.I = t.I ∧ readV u 0 ≠ readV t 0 :=
  ⟨by decide, _, rfl, writeV 0 1#8 _, rfl, rfl, by decide⟩
theorem witness_StoreIsSeenByTheNextFetch :
    (1 : Reg).val ≥ 1 ∧ (writeI 0x202#16 State.reset).I.toNat + (1 : Reg).val ≤ 0xFFF ∧
      (writeI 0x202#16 State.reset).I = (writeI 0x202#16 State.reset).pc + 2 ∧
      (writeI 0x202#16 State.reset).pc.toNat % 2 = 0 := by decide

/-- After reset, with events to come. -/
def withEvents (es : List Event) : State := { State.reset with schedule := es }

theorem witness_TimerTickCountsDown :
    EventMoves .timerTick (withEvents [.timerTick]) State.reset ∧ (withEvents [.timerTick]).halted = false :=
  ⟨rfl, rfl⟩
theorem witness_TimerTickCountsDown_halted :
    EventMoves .timerTick { stopped with schedule := [.timerTick] } stopped ∧ stopped.halted = true :=
  ⟨rfl, rfl⟩
theorem witness_ManyTicksCountDown :
    (withEvents [.timerTick, .timerTick, .step]).schedule = List.replicate 2 .timerTick ++ [.step] ∧
      (withEvents [.timerTick, .timerTick, .step]).halted = false := ⟨rfl, rfl⟩
theorem witness_DelayTimerRisesOnlyByFx15 :
    ∃ t, step (writeV 0 0x3C#8 (at200 0xF015)) = .next t ∧
      t.DT.toNat > (writeV 0 0x3C#8 (at200 0xF015)).DT.toNat := ⟨_, rfl, by decide⟩
theorem witness_KeySetWritesOneKey : EventMoves (.keySet 7 true) (withEvents [.keySet 7 true]) State.reset := rfl
theorem witness_KeySetWritesOneKey_core :
    CoreMoves (at200 0x6A42) (at200 0x6A42) ∧ ∃ t, step (at200 0x6A42) = .next t := ⟨rfl, _, rfl⟩
theorem witness_PresenterReads : EventMoves .frameRead (withEvents [.frameRead]) State.reset := rfl
theorem witness_PresenterAcknowledges : EventMoves .drawAck (withEvents [.drawAck]) State.reset := rfl
theorem witness_ResetLoadsTheRom :
    EventMoves (.reset (List.replicate 3584 0xAB#8)) (withEvents [.reset (List.replicate 3584 0xAB#8)]) State.reset ∧
      (List.replicate 3584 0xAB#8).length ≤ 3584 := ⟨rfl, Nat.le_of_eq List.length_replicate⟩
theorem witness_OversizeRomIsRejected :
    EventMoves (.reset (List.replicate 3585 0xAB#8)) (withEvents [.reset (List.replicate 3585 0xAB#8)]) State.reset ∧
      (List.replicate 3585 0xAB#8).length > 3584 := ⟨rfl, by rw [List.length_replicate]; decide⟩
theorem witness_EveryStepKeepsTheInvariant :
    ∃ s t, Inv s ∧ step s = .next t :=
  ⟨stopped, stopped,
    ⟨by decide, by decide, by decide, by decide, by decide, by decide, by decide, by decide⟩, rfl⟩
theorem witness_EveryStepKeepsTheInvariant_running :
    ∃ t, Inv (at200 0x6A42) ∧ step (at200 0x6A42) = .next t ∧ t.halted = false :=
  ⟨_, ⟨by decide, by decide, by decide, by decide, by decide, by decide, by decide, by decide⟩, rfl, by decide⟩
theorem witness_NextPcOfEveryInstruction :
    State.reset.halted = false ∧ ∃ t, exec (.ldVxK 0) State.reset = .next t ∧ t.halted = false := ⟨rfl, _, rfl, rfl⟩
theorem witness_NextPcOfEveryInstruction_raise :
    CoreMoves (at200 0x00EE) (at200 0x00EE) ∧ (at200 0x00EE).halted = false ∧
      ∃ t, step (at200 0x00EE) = .next t ∧ t.halted = true := ⟨rfl, by decide, _, rfl, by decide⟩
theorem witness_exec_answers_next : ∃ t, exec (.ldB 0) State.reset = .next t := ⟨_, rfl⟩
/-- An answer of `exec` that `p` holds of. -/
def answers (i : Instr) (s : State) (p : State → Prop) : Prop := ∃ t, exec i s = .next t ∧ p t

/-- After reset with V0 = 1. -/
def one : State := writeV 0 1#8 State.reset

theorem witness_OnlyTheListedWritersWrite :
    answers (.ldB 0) one (fun t => ∃ a, readByte t a ≠ readByte one a) ∧ answers (.ldI 1#12) one (fun t => t.I ≠ one.I) ∧
      answers (.call 0x300#12) one (fun t => t.sp ≠ one.sp ∧ t.stack ≠ one.stack) ∧
      answers (.ldDtVx 0) one (fun t => t.DT ≠ one.DT) ∧ answers (.ldStVx 0) one (fun t => t.ST ≠ one.ST) ∧
      answers .cls one (fun t => t.drawReady ≠ one.drawReady) ∧
      answers (.rnd 0 0x0F#8) one (fun t => t.draws ≠ one.draws) ∧
      answers (.subnReg 0 1) one (fun t => readV t 0 ≠ readV one 0) ∧
      answers .ret one (fun t => t.halted ≠ one.halted) :=
  ⟨⟨_, rfl, 0, by decide⟩, ⟨_, rfl, by decide⟩, ⟨_, rfl, by decide⟩, ⟨_, rfl, by decide⟩, ⟨_, rfl, by decide⟩,
    ⟨_, rfl, by decide⟩, ⟨_, rfl, by decide⟩, ⟨_, rfl, by decide⟩, ⟨_, rfl, by decide⟩⟩
theorem witness_ErrorsOfEachInstruction :
    answers (.sys 0#12) State.reset (fun t => t.errCode = 2#4 ∧ t.halted = true) ∧
      answers (.call 0x300#12) { State.reset with sp := 47 } (fun t => t.errCode = 3#4 ∧ t.halted = true) ∧
      answers .ret State.reset (fun t => t.errCode = 4#4 ∧ t.halted = true) ∧
      answers (.ldMemVx 1) (writeI 0xFFF#16 State.reset) (fun t => t.errCode = 5#4 ∧ t.halted = true) ∧
      answers (.sknp 0) (writeV 0 16#8 State.reset) (fun t => t.errCode = 8#4 ∧ t.halted = true) :=
  ⟨⟨_, rfl, by decide⟩, ⟨_, rfl, by decide⟩, ⟨_, rfl, by decide⟩, ⟨_, rfl, by decide⟩, ⟨_, rfl, by decide⟩⟩
theorem witness_FlagRegisterHasSixSideWriters :
    ∃ t, exec (.shr 0 0) (writeV 0 1#8 State.reset) = .next t ∧ readV t 15 ≠ readV (writeV 0 1#8 State.reset) 15 :=
  ⟨_, rfl, by decide⟩
theorem witness_FailingInstruction :
    State.reset.halted = false ∧ ∃ t, exec .ret State.reset = .next t ∧ t.halted = true := ⟨rfl, _, rfl, rfl⟩
theorem witness_HaltIsStickyUntilReset :
    (∀ rom, (upcoming { stopped with schedule := [.keySet 0 true] }).1 ≠ .reset rom) ∧
      ∃ t, step { stopped with schedule := [.keySet 0 true] } = .next t :=
  ⟨fun _ h => Event.noConfusion h, _, rfl⟩

end Sys2Proof.Machine.Tests
end

section
/-! Frames: what an operation leaves alone, said once per operation and composed. -/

namespace Sys2Proof.Machine

theorem SameIn.trans {p : Part} {s t u : State} (hst : SameIn p s t) (htu : SameIn p t u) : SameIn p s u := by
  cases p with
  | mem | V | stack => exact fun k => (htu k).trans (hst k)
  | _ => exact Eq.trans htu hst

/-- Frames compose: two operations in a row change at most what one of them may change. -/
theorem OnlyChanges.trans {ps qs : List Part} {s t u : State} (hst : OnlyChanges ps s t)
    (htu : OnlyChanges qs t u) : OnlyChanges (ps ++ qs) s u := by
  intro p hp
  have hps : p ∉ ps := fun h => hp (List.mem_append_left qs h)
  have hqs : p ∉ qs := fun h => hp (List.mem_append_right ps h)
  exact (hst p hps).trans (htu p hqs)

theorem onlyChanges_writeV (x : Reg) (b : Byte) (s : State) : OnlyChanges [.V] s (writeV x b s) := by
  intro p hp
  cases p with
  | V => exact absurd (List.mem_singleton_self _) hp
  | mem | stack => exact fun _ => rfl
  | _ => rfl

theorem onlyChanges_advance (s : State) : OnlyChanges [.pc] s (advance s) := by
  intro p hp
  cases p with
  | pc => exact absurd (List.mem_singleton_self _) hp
  | mem | V | stack => exact fun _ => rfl
  | _ => rfl

/-- The frame of an instruction that writes a register and goes on to the next word. -/
theorem onlyChanges_advance_writeV (x : Reg) (b : Byte) (s : State) :
    OnlyChanges [.V, .pc] s (advance (writeV x b s)) :=
  (onlyChanges_writeV x b s).trans (onlyChanges_advance _)

theorem readV_advance_writeV_self (x : Reg) (b : Byte) (s : State) : readV (advance (writeV x b s)) x = b := by
  rw [readV_advance, readV_writeV, if_pos rfl]

theorem otherRegisters_advance_writeV (x : Reg) (b : Byte) (s : State) :
    OtherRegisters [x] s (advance (writeV x b s)) := by
  intro r hr
  have hne : r ≠ x := List.ne_of_not_mem_cons hr
  rw [readV_advance, readV_writeV, if_neg hne]

end Sys2Proof.Machine
end

section
/-! The register load 6xkk (40_alu R122). -/

namespace Sys2Proof.Machine

/-- The word R95 gives for 6xkk, written out as bits, is the encoder's. -/
theorem encode_ldByte (x : Reg) (kk : Byte) :
    encode (.ldByte x kk) = 0x6#4 ++ (BitVec.ofFin x : Nibble) ++ kk := rfl

theorem exec_ldByte (x : Reg) (kk : Byte) (s : State) : exec (.ldByte x kk) s = .next (advance (writeV x kk s)) := rfl

/-- Settles O10: the word is the load's own encoding, and the load is a register write followed by the advance of
`pc`, whose frames compose. -/
theorem loadByteSetsRegister : Obligations.LoadByteSetsRegister := by
  intro x kk s
  constructor
  · rw [← encode_ldByte]
    exact Laws.RoundTrip.ldByte x kk rfl
  · exact ⟨advance (writeV x kk s), exec_ldByte x kk s, readV_advance_writeV_self x kk s, advance_pc _,
      otherRegisters_advance_writeV x kk s, onlyChanges_advance_writeV x kk s⟩

end Sys2Proof.Machine
end

section
/-! Clearing the screen, 00E0 (41_display R150). -/

namespace Sys2Proof.Machine

/-- The display's counterpart of `onlyChanges_writeV`: showing pixels touches `fb` and the draw-ready flag alone. -/
theorem onlyChanges_showPixels (fb : Pixels) (s : State) : OnlyChanges [.fb, .drawReady] s (showPixels fb s) := by
  intro p hp
  cases p with
  | fb | drawReady => exact absurd (by decide) hp
  | mem | V | stack => exact fun _ => rfl
  | _ => rfl

/-- The frame of an instruction that shows pixels and goes on to the next word. -/
theorem onlyChanges_advance_showPixels (fb : Pixels) (s : State) :
    OnlyChanges [.fb, .drawReady, .pc] s (advance (showPixels fb s)) :=
  (onlyChanges_showPixels fb s).trans (onlyChanges_advance _)

theorem drawReady_advance_showPixels (fb : Pixels) (s : State) : (advance (showPixels fb s)).drawReady = true := by
  rw [advance_drawReady, showPixels_drawReady]

@[simp] theorem pixelAt_advance (s : State) (col row : Nat) : pixelAt (advance s) col row = pixelAt s col row := rfl

@[simp] theorem pixelAt_showPixels (fb : Pixels) (s : State) (col row : Nat) :
    pixelAt (showPixels fb s) col row = fb.getLsbD (col + row * 64) := rfl

/-- The word R95 gives for 00E0 is the encoder's. -/
theorem encode_cls : encode .cls = 0x00E0#16 := rfl

theorem exec_cls (s : State) : exec .cls s = .next (advance (showPixels (0#Config.numPixels) s)) := rfl

/-- Settles O18: 00E0 is the word of CLS, which shows the all-zero buffer, every bit of which is clear, and then
advances `pc`; the frames of the two operations compose. -/
theorem clearScreenClearsEveryPixel : Obligations.ClearScreenClearsEveryPixel := by
  constructor
  · rw [← encode_cls]
    exact Laws.RoundTrip.cls rfl
  · intro s
    have hpixels : ∀ col row, col < 64 → row < 32 →
        pixelAt (advance (showPixels (0#Config.numPixels) s)) col row = false := by
      intro col row _ _
      rw [pixelAt_advance, pixelAt_showPixels, BitVec.getLsbD_zero]
    exact ⟨advance (showPixels (0#Config.numPixels) s), exec_cls s, hpixels,
      drawReady_advance_showPixels _ s, advance_pc _, onlyChanges_advance_showPixels _ s⟩

end Sys2Proof.Machine
end

section
/-! Skips on a byte comparison, 3xkk and 4xkk (42_control R170, R171). -/

namespace Sys2Proof.Machine

/-- The operation beneath jumps and skips: it writes `pc` alone, wherever the target lies (R164). -/
theorem onlyChanges_jumpTo (target : Word) (s : State) : OnlyChanges [.pc] s (jumpTo target s) := by
  intro p hp
  cases p with
  | pc => exact absurd (List.mem_singleton_self _) hp
  | mem | V | stack => exact fun _ => rfl
  | _ => rfl

theorem onlyChanges_skipIf (cond : Bool) (s : State) : OnlyChanges [.pc] s (skipIf cond s) :=
  onlyChanges_jumpTo _ s

theorem skipIf_beq_pc (a b : Byte) (s : State) :
    (skipIf (a == b) s).pc = if a = b then s.pc + 4 else s.pc + 2 := by
  rw [skipIf_pc]
  by_cases h : a = b
  · rw [if_pos h, if_pos (beq_iff_eq.mpr h)]
  · rw [if_neg h, if_neg (mt beq_iff_eq.mp h)]

/-- With the condition negated the two addresses trade places. -/
theorem skipIf_bne_pc (a b : Byte) (s : State) :
    (skipIf (a != b) s).pc = if a = b then s.pc + 2 else s.pc + 4 := by
  rw [skipIf_pc]
  by_cases h : a = b
  · rw [if_pos h, if_neg (fun hne => bne_iff_ne.mp hne h)]
  · rw [if_neg h, if_pos (bne_iff_ne.mpr h)]

/-- The words R95 gives for 3xkk and 4xkk, written out as bits, are the encoder's. -/
theorem encode_seByte (x : Reg) (kk : Byte) :
    encode (.seByte x kk) = 0x3#4 ++ (BitVec.ofFin x : Nibble) ++ kk := rfl

theorem encode_sneByte (x : Reg) (kk : Byte) :
    encode (.sneByte x kk) = 0x4#4 ++ (BitVec.ofFin x : Nibble) ++ kk := rfl

theorem exec_seByte (x : Reg) (kk : Byte) (s : State) :
    exec (.seByte x kk) s = .next (skipIf (readV s x == kk) s) := rfl

theorem exec_sneByte (x : Reg) (kk : Byte) (s : State) :
    exec (.sneByte x kk) s = .next (skipIf (readV s x != kk) s) := rfl

/-- Settles O29: the two words are the skips' own encodings, and each skip moves `pc` alone, on the comparison of the
register with the byte or on its negation. -/
theorem skipComparesWithByte : Obligations.SkipComparesWithByte := by
  intro x kk s
  refine ⟨?decodeSe, ?decodeSne, ?se, ?sne⟩
  case decodeSe =>
    rw [← encode_seByte]
    exact Laws.RoundTrip.seByte x kk rfl
  case decodeSne =>
    rw [← encode_sneByte]
    exact Laws.RoundTrip.sneByte x kk rfl
  case se => exact ⟨_, exec_seByte x kk s, skipIf_beq_pc _ kk s, onlyChanges_skipIf _ s⟩
  case sne => exact ⟨_, exec_sneByte x kk s, skipIf_bne_pc _ kk s, onlyChanges_skipIf _ s⟩

end Sys2Proof.Machine
end

section
/-! The glyph address, Fx29 (44_memory_index R197). -/

namespace Sys2Proof.Machine

/-- The index register's counterpart of `onlyChanges_writeV`. -/
theorem onlyChanges_writeI (w : Word) (s : State) : OnlyChanges [.I] s (writeI w s) := by
  intro p hp
  cases p with
  | I => exact absurd (List.mem_singleton_self _) hp
  | mem | V | stack => exact fun _ => rfl
  | _ => rfl

/-- The frame of an instruction that writes `I` and goes on to the next word. -/
theorem onlyChanges_advance_writeI (w : Word) (s : State) : OnlyChanges [.I, .pc] s (advance (writeI w s)) :=
  (onlyChanges_writeI w s).trans (onlyChanges_advance _)

/-- The largest byte gives 1275, so the 16-bit product loses nothing. -/
theorem glyphAddress_toNat (s : State) (x : Reg) : (glyphAddress s x).toNat = (readV s x).toNat * 5 := by
  have hbyte : (readV s x).toNat < 256 := (readV s x).isLt
  have hfits : (readV s x).toNat * 5 < 2 ^ 16 := by omega
  exact (BitVec.toNat_ofNat ..).trans (Nat.mod_eq_of_lt hfits)

/-- Nor does the reduction of `I` to 12 bits (10_state R30) act on a glyph's address. -/
theorem glyphAddress_lt (s : State) (x : Reg) : (glyphAddress s x).toNat < 4096 := by
  have hbyte : (readV s x).toNat < 256 := (readV s x).isLt
  rw [glyphAddress_toNat]
  omega

/-- The word R95 gives for Fx29, written out as bits, is the encoder's. -/
theorem encode_ldF (x : Reg) : encode (.ldF x) = 0xF#4 ++ (BitVec.ofFin x : Nibble) ++ 0x29#8 := rfl

theorem exec_ldF (x : Reg) (s : State) : exec (.ldF x) s = .next (advance (writeI (glyphAddress s x) s)) := rfl

/-- Settles O37: the word is the instruction's own encoding, and every multiple of five it can ask for fits the 12 bits
of `I`, so the write stores it unreduced. -/
theorem glyphAddressIsFiveTimesTheByte : Obligations.GlyphAddressIsFiveTimesTheByte := by
  intro x s
  constructor
  · rw [← encode_ldF]
    exact Laws.RoundTrip.ldF x rfl
  · have hI : (advance (writeI (glyphAddress s x) s)).I.toNat = (readV s x).toNat * 5 := by
      rw [advance_I, writeI_of_lt _ s (glyphAddress_lt s x), glyphAddress_toNat]
    exact ⟨advance (writeI (glyphAddress s x) s), exec_ldF x s, hI, advance_pc _, onlyChanges_advance_writeI _ s⟩

end Sys2Proof.Machine
end

section
/-! The keypad and who writes it: the input collaborator's event alone, no instruction (60_exceptions R228). -/

namespace Sys2Proof.Machine

/-! ## The key event -/

theorem keyDown_keySet (k : Fin 16) (b : Bool) (s : State) (j : Nat) :
    keyDown (keySet k b s) j = if j = k.val then b else keyDown s j := by
  have hk : k.val < Config.numKeys := k.isLt
  have hbit : (BitVec.twoPow Config.numKeys k.val).getLsbD j = decide (j = k.val) := by
    simp only [BitVec.getLsbD_twoPow, hk, decide_true, Bool.true_and, eq_comm]
  rw [keyDown, keySet_key]
  cases b with
  | true =>
    rw [if_pos rfl, BitVec.getLsbD_or, hbit]
    by_cases hj : j = k.val <;> simp [hj, keyDown]
  | false =>
    rw [if_neg Bool.false_ne_true, BitVec.getLsbD_and, BitVec.getLsbD_not, hbit]
    by_cases hj : j = k.val
    · simp [hj]
    · have hin : s.key.getLsbD j = true → j < Config.numKeys := BitVec.lt_of_getLsbD
      simpa [hj, keyDown] using hin

theorem onlyChanges_keySet (k : Fin 16) (b : Bool) (s : State) : OnlyChanges [.key] s (keySet k b s) := by
  intro p hp
  cases p with
  | key => exact absurd (List.mem_singleton_self _) hp
  | mem | V | stack => exact fun _ => rfl
  | _ => rfl

section

variable {s t : State}

/-! ## Operations that may refuse, or write a run, leave the keypad alone -/

theorem pushReturn_key {ret : Word} (h : pushReturn ret s = some t) : t.key = s.key := by
  rcases pushReturn_cases ret s with ⟨_, hnone⟩ | ⟨_, hsome⟩
  · cases hnone.symm.trans h
  · cases hsome.symm.trans h
    rfl

theorem popReturn_key {target : Word} (h : popReturn s = some (target, t)) : t.key = s.key := by
  rcases popReturn_cases s with ⟨_, hnone⟩ | ⟨_, _, hsome⟩
  · cases hnone.symm.trans h
  · cases hsome.symm.trans h
    rfl

theorem storeBytes_key {bytes : List Byte} (h : storeBytes bytes s = some t) : t.key = s.key := by
  unfold storeBytes at h
  split at h
  · cases h
    rfl
  · cases h

theorem writeRun_key (k : Nat) (bytes : List Byte) (s : State) : (writeRun k bytes s).key = s.key := by
  obtain ⟨V', hV⟩ := writeRun_keeps bytes k s
  rw [hV]

/-! ## No instruction writes a key -/

theorem execRet_key (h : execRet s = .next t) : t.key = s.key := by
  unfold execRet at h
  split at h
  next => cases h; exact raise_key ..
  next hpop => cases h; rw [jumpTo_key, popReturn_key hpop]

theorem execCall_key {nnn : Addr12} (h : execCall nnn s = .next t) : t.key = s.key := by
  unfold execCall at h
  split at h
  next => cases h; exact raise_key ..
  next hpush => cases h; rw [jumpTo_key, pushReturn_key hpush]

theorem execSkp_key {x : Reg} (h : execSkp x s = .next t) : t.key = s.key := by
  unfold execSkp at h
  split at h
  next => cases h; exact raiseKeyIndex_key ..
  next => cases h; exact skipIf_key ..

theorem execSknp_key {x : Reg} (h : execSknp x s = .next t) : t.key = s.key := by
  unfold execSknp at h
  split at h
  next => cases h; exact raiseKeyIndex_key ..
  next => cases h; exact skipIf_key ..

theorem execDrw_key {x y : Reg} {n : Nibble} (h : execDrw x y n s = .next t) : t.key = s.key := by
  unfold execDrw at h
  split at h
  next => cases h; exact raiseMemoryBounds_key ..
  next => cases h; simp only [advance_key, showPixels_key, writeFlag_key]

theorem execLdVxK_key {x : Reg} (h : execLdVxK x s = .next t) : t.key = s.key := by
  unfold execLdVxK at h
  split at h
  next => cases h; rfl
  next => cases h; simp only [advance_key, writeV_key, nextDraw_key]

theorem execLdB_key {x : Reg} (h : execLdB x s = .next t) : t.key = s.key := by
  unfold execLdB at h
  split at h
  next => cases h; exact raiseMemoryBounds_key ..
  next hstore => cases h; rw [advance_key, storeBytes_key hstore]

theorem execLdMemVx_key {x : Reg} (h : execLdMemVx x s = .next t) : t.key = s.key := by
  unfold execLdMemVx at h
  split at h
  next => cases h; exact raiseMemoryBounds_key ..
  next hstore => cases h; rw [advance_key, storeBytes_key hstore]

theorem execLdVxMem_key {x : Reg} (h : execLdVxMem x s = .next t) : t.key = s.key := by
  unfold execLdVxMem at h
  split at h
  next => cases h; exact raiseMemoryBounds_key ..
  next => cases h; rw [advance_key, writeRun_key]

/-- The instructions whose meaning branches have their own lemmas above; each of the others composes updates that copy
the keypad. -/
theorem exec_key {i : Instr} (h : exec i s = .next t) : t.key = s.key := by
  cases i with
  | ret => exact execRet_key h
  | call => exact execCall_key h
  | skp => exact execSkp_key h
  | sknp => exact execSknp_key h
  | drw => exact execDrw_key h
  | ldVxK => exact execLdVxK_key h
  | ldB => exact execLdB_key h
  | ldMemVx => exact execLdMemVx_key h
  | ldVxMem => exact execLdVxMem_key h
  | _ => cases h; rfl

/-- The Core's step is idle, an error entry or an instruction, and each leaves the keypad alone. -/
theorem coreStep_key (h : coreStep s = .next t) : t.key = s.key := by
  rcases coreStep_cases s with ⟨_, hc⟩ | ⟨_, _, hc⟩ | ⟨_, _, hc⟩ | ⟨_, _, _, hc⟩ |
    ⟨_, _, _, _, _, ⟨_, _, hc⟩ | ⟨_, _, hc⟩⟩ <;> rw [hc] at h
  · cases h; rfl
  · cases h; exact raise_key ..
  · cases h; exact raise_key ..
  · cases h; exact raise_key ..
  · cases h; exact raise_key ..
  · exact exec_key h

theorem EventMoves.key_eq {e : Event} {s0 : State} (h : EventMoves e s s0) : s0.key = s.key := by
  obtain ⟨_, _, rfl⟩ := h.keeps
  rfl

end

/-- Settles O47: the event writes one bit of the keypad without a look at `halted`, and no case of the Core's step
writes the keypad. -/
theorem keySetWritesOneKey : Obligations.KeySetWritesOneKey := by
  constructor
  · intro s s0 k b hmoves
    refine ⟨keySet k b s0, hmoves.step_eq, fun j _ => ?_, onlyChanges_keySet k b s0⟩
    have hsame : keyDown s0 j = keyDown s j := by rw [keyDown, hmoves.key_eq, keyDown]
    rw [keyDown_keySet, hsame]
  · intro s s0 t hcore hstep
    have hstep0 : coreStep s0 = .next t := hcore.step_eq.symm.trans hstep
    exact (coreStep_key hstep0).trans hcore.key_eq

end Sys2Proof.Machine
end

section
/-! The encoder and the decoder as each other's inverse (30_encoding sections 2, 4 and 5). -/

namespace Sys2Proof

/-! ## A word from its fields -/

theorem clearLowNibble_toNat (op : Word) : (op &&& 0xFFF0#16).toNat = op.toNat / 16 * 16 := by
  have hshifts : op &&& 0xFFF0#16 = (op >>> 4) <<< 4 := by
    ext k hk
    interval_cases k <;> simp
  rw [hshifts, BitVec.toNat_shiftLeft, BitVec.toNat_ushiftRight, Nat.shiftRight_eq_div_pow, Nat.shiftLeft_eq]
  omega

section

variable {op : Word} {c : Nibble} (hc : (classField op).toNat = c.toNat)

include hc

theorem formatA_fields : formatA c (nnnField op) = op := by
  rw [classField_toNat] at hc
  apply BitVec.eq_of_toNat_eq
  rw [formatA_toNat, nnnField_toNat]
  omega

theorem formatK_fields : formatK c (xField op) (kkField op) = op := by
  rw [classField_toNat] at hc
  apply BitVec.eq_of_toNat_eq
  rw [formatK_toNat, xField_val, kkField_toNat]
  omega

theorem formatR_fields : formatR c (xField op) (yField op) (nField op) = op := by
  rw [classField_toNat] at hc
  apply BitVec.eq_of_toNat_eq
  rw [formatR_toNat, xField_val, yField_val, nField_toNat]
  omega

/-- The canonical word of a format whose low nibble is ignored (30_encoding R97). -/
theorem formatR_fields_zero : formatR c (xField op) (yField op) 0x0#4 = op &&& 0xFFF0#16 := by
  rw [classField_toNat] at hc
  apply BitVec.eq_of_toNat_eq
  rw [formatR_toNat, xField_val, yField_val, clearLowNibble_toNat]
  change _ + 0 = _
  omega

end

/-! ## What decodes is well-formed and encodes to its word, class by class -/

/-- The statement of the inverse for a word whose bits all count. -/
def DecodesFrom (op : Word) (i : Instr) : Prop := i.wellFormed = true ∧ encode i = op

theorem decodeClass0_inv {op : Word} {i : Instr} (hc : (classField op).toNat = 0)
    (h : decodeClass0 op = .instr i) : DecodesFrom op i := by
  have hop : formatA 0x0#4 (nnnField op) = op := formatA_fields hc
  unfold decodeClass0 at h
  split at h
  next h0 => cases h; exact ⟨rfl, h0.symm⟩
  next hcls =>
    split at h
    next h0 => cases h; exact ⟨rfl, h0.symm⟩
    next hret =>
      cases h
      have h1 : nnnField op ≠ 0x0E0#12 := fun he => hcls (by rw [← hop, he]; rfl)
      have h2 : nnnField op ≠ 0x0EE#12 := fun he => hret (by rw [← hop, he]; rfl)
      exact ⟨by simp [Instr.wellFormed, h1, h2], hop⟩

theorem decodeClass8_inv {op : Word} {i : Instr} (hc : (classField op).toNat = 8)
    (h : decodeClass8 op = .instr i) : DecodesFrom op i := by
  have hop : formatR 0x8#4 (xField op) (yField op) (nField op) = op := formatR_fields hc
  have hsel : ∀ n : Nibble, (nField op).toNat = n.toNat → formatR 0x8#4 (xField op) (yField op) n = op := by
    intro n hn
    rw [← BitVec.eq_of_toNat_eq hn, hop]
  unfold decodeClass8 at h
  split at h
  case h_10 => cases h
  all_goals
    next hn =>
      cases h
      exact ⟨rfl, hsel _ hn⟩

theorem decodeClassE_inv {op : Word} {i : Instr} (hc : (classField op).toNat = 14)
    (h : decodeClassE op = .instr i) : DecodesFrom op i := by
  have hop : formatK 0xE#4 (xField op) (kkField op) = op := formatK_fields hc
  have hsel : ∀ kk : Byte, kkField op = kk → formatK 0xE#4 (xField op) kk = op := fun kk hk => hk ▸ hop
  unfold decodeClassE at h
  split_ifs at h
  all_goals
    next hk =>
      cases h
      exact ⟨rfl, hsel _ hk⟩

theorem decodeClassF_inv {op : Word} {i : Instr} (hc : (classField op).toNat = 15)
    (h : decodeClassF op = .instr i) : DecodesFrom op i := by
  have hop : formatK 0xF#4 (xField op) (kkField op) = op := formatK_fields hc
  have hsel : ∀ kk : Byte, kkField op = kk → formatK 0xF#4 (xField op) kk = op := fun kk hk => hk ▸ hop
  unfold decodeClassF at h
  split_ifs at h
  all_goals
    next hk =>
      cases h
      exact ⟨rfl, hsel _ hk⟩

/-- Outside classes 5 and 9 the canonical word is the word. -/
theorem DecodesFrom.canonical {op : Word} {i : Instr} {c : Nat} (h : DecodesFrom op i)
    (hc : (classField op).toNat = c) (hcounts : c ≠ 5 ∧ c ≠ 9) : i.wellFormed = true ∧
      encode i = if op.toNat / 4096 = 5 ∨ op.toNat / 4096 = 9 then op &&& 0xFFF0#16 else op := by
  obtain ⟨hwf, henc⟩ := h
  rw [classField_toNat] at hc
  exact ⟨hwf, by rw [if_neg (by omega), henc]⟩

/-- Settles O8, class by class: the format of the class puts every field back in its place. -/
theorem encodeOfDecode : Obligations.EncodeOfDecode := by
  intro op i h
  unfold decode at h
  split at h
  case h_1 hc => exact (decodeClass0_inv hc h).canonical hc (by decide)
  case h_9 hc => exact (decodeClass8_inv hc h).canonical hc (by decide)
  case h_15 hc => exact (decodeClassE_inv hc h).canonical hc (by decide)
  case h_16 =>
    have hlt : (classField op).toNat < 16 := (classField op).isLt
    simp only [imp_false] at *
    have hc : (classField op).toNat = 15 := by omega
    exact (decodeClassF_inv hc h).canonical hc (by decide)
  case h_2 hc | h_3 hc | h_11 hc | h_12 hc =>
    cases h
    exact DecodesFrom.canonical ⟨rfl, formatA_fields hc⟩ hc (by decide)
  case h_4 hc | h_5 hc | h_7 hc | h_8 hc | h_13 hc =>
    cases h
    exact DecodesFrom.canonical ⟨rfl, formatK_fields hc⟩ hc (by decide)
  case h_14 hc =>
    cases h
    exact DecodesFrom.canonical ⟨rfl, formatR_fields hc⟩ hc (by decide)
  case h_6 hc | h_10 hc =>
    cases h
    refine ⟨rfl, (formatR_fields_zero hc).trans (if_pos ?_).symm⟩
    rw [classField_toNat] at hc
    omega

/-- Settles O7: each row's own round trip. -/
theorem decodeOfEncode : Obligations.DecodeOfEncode := by
  intro i
  cases i with
  | sys nnn => exact Laws.RoundTrip.sys nnn
  | cls => exact Laws.RoundTrip.cls
  | ret => exact Laws.RoundTrip.ret
  | jp nnn => exact Laws.RoundTrip.jp nnn
  | call nnn => exact Laws.RoundTrip.call nnn
  | seByte x kk => exact Laws.RoundTrip.seByte x kk
  | sneByte x kk => exact Laws.RoundTrip.sneByte x kk
  | seReg x y => exact Laws.RoundTrip.seReg x y
  | ldByte x kk => exact Laws.RoundTrip.ldByte x kk
  | addByte x kk => exact Laws.RoundTrip.addByte x kk
  | ldReg x y => exact Laws.RoundTrip.ldReg x y
  | orReg x y => exact Laws.RoundTrip.orReg x y
  | andReg x y => exact Laws.RoundTrip.andReg x y
  | xorReg x y => exact Laws.RoundTrip.xorReg x y
  | addReg x y => exact Laws.RoundTrip.addReg x y
  | subReg x y => exact Laws.RoundTrip.subReg x y
  | shr x y => exact Laws.RoundTrip.shr x y
  | subnReg x y => exact Laws.RoundTrip.subnReg x y
  | shl x y => exact Laws.RoundTrip.shl x y
  | sneReg x y => exact Laws.RoundTrip.sneReg x y
  | ldI nnn => exact Laws.RoundTrip.ldI nnn
  | jpV0 nnn => exact Laws.RoundTrip.jpV0 nnn
  | rnd x kk => exact Laws.RoundTrip.rnd x kk
  | drw x y n => exact Laws.RoundTrip.drw x y n
  | skp x => exact Laws.RoundTrip.skp x
  | sknp x => exact Laws.RoundTrip.sknp x
  | ldVxDt x => exact Laws.RoundTrip.ldVxDt x
  | ldVxK x => exact Laws.RoundTrip.ldVxK x
  | ldDtVx x => exact Laws.RoundTrip.ldDtVx x
  | ldStVx x => exact Laws.RoundTrip.ldStVx x
  | addI x => exact Laws.RoundTrip.addI x
  | ldF x => exact Laws.RoundTrip.ldF x
  | ldB x => exact Laws.RoundTrip.ldB x
  | ldMemVx x => exact Laws.RoundTrip.ldMemVx x
  | ldVxMem x => exact Laws.RoundTrip.ldVxMem x

/-! ## The rejected words -/

theorem decodeClass0_total (op : Word) : ∃ i, decodeClass0 op = .instr i := by
  unfold decodeClass0
  split_ifs <;> exact ⟨_, rfl⟩

theorem decodeClass8_rejected_iff (op : Word) :
    (∃ why, decodeClass8 op = .rejected why) ↔ op.toNat % 16 ∈ [8, 9, 0xA, 0xB, 0xC, 0xD, 0xF] := by
  rw [← nField_toNat]
  have hlt : (nField op).toNat < 16 := (nField op).isLt
  unfold decodeClass8
  generalize (nField op).toNat = n at hlt ⊢
  interval_cases n <;> simp

theorem decodeClassE_rejected_iff (op : Word) :
    (∃ why, decodeClassE op = .rejected why) ↔ op.toNat % 256 ∉ [0x9E, 0xA1] := by
  rw [← kkField_toNat]
  unfold decodeClassE
  split_ifs with h1 h2
  · simp [h1]
  · simp [h2]
  · simp_all [BitVec.toNat_eq]

theorem decodeClassF_rejected_iff (op : Word) : (∃ why, decodeClassF op = .rejected why) ↔
    op.toNat % 256 ∉ [0x07, 0x0A, 0x15, 0x18, 0x1E, 0x29, 0x33, 0x55, 0x65] := by
  rw [← kkField_toNat]
  unfold decodeClassF
  split_ifs
  case neg => simp_all [BitVec.toNat_eq]
  all_goals
    next hk => simp [hk]

/-- Settles O9: of the sixteen classes, three hand the word to a decoder that can reject it. -/
theorem rejectedWordsAreTheUnlistedSelectors : Obligations.RejectedWordsAreTheUnlistedSelectors := by
  intro op
  have hlt : (classField op).toNat < 16 := (classField op).isLt
  rw [← classField_toNat, ← decodeClass8_rejected_iff, ← decodeClassE_rejected_iff, ← decodeClassF_rejected_iff]
  obtain ⟨i, hclass0⟩ := decodeClass0_total op
  unfold decode
  generalize (classField op).toNat = c at hlt ⊢
  interval_cases c <;> simp [hclass0]

/-- Settles O6: nine closed words, each read off by the decoder. -/
theorem sampleWordsDecode : Obligations.SampleWordsDecode := by
  unfold Obligations.SampleWordsDecode
  decide

end Sys2Proof
end

section
/-! Frames of the remaining operations, and the two shapes most instructions end in. -/

namespace Sys2Proof.Machine

/-! ## Frames -/

theorem SameIn.refl (p : Part) (s : State) : SameIn p s s := by
  cases p with
  | mem | V | stack => exact fun _ => rfl
  | _ => exact rfl

theorem OnlyChanges.refl (ps : List Part) (s : State) : OnlyChanges ps s s := fun p _ => SameIn.refl p s

theorem OnlyChanges.mono {ps qs : List Part} {s t : State} (h : OnlyChanges ps s t) (hsub : ps ⊆ qs) :
    OnlyChanges qs s t := fun p hp => h p (fun hps => hp (hsub hps))

/-- A frame under which the register file is out of reach. -/
theorem OnlyChanges.readV_eq {ps : List Part} {s t : State} (h : OnlyChanges ps s t) (hV : Part.V ∉ ps) (r : Reg) :
    readV t r = readV s r := h .V hV r

section

variable (s : State)

theorem onlyChanges_memory (m : Memory) : OnlyChanges [.mem] s { s with mem := m } := by
  intro p hp
  cases p with
  | mem => exact absurd (List.mem_singleton_self _) hp
  | V | stack => exact fun _ => rfl
  | _ => rfl

theorem onlyChanges_registers (V' : Vector Byte Config.numV) : OnlyChanges [.V] s { s with V := V' } := by
  intro p hp
  cases p with
  | V => exact absurd (List.mem_singleton_self _) hp
  | mem | stack => exact fun _ => rfl
  | _ => rfl

theorem onlyChanges_push (sp' : Fin Config.stackCapacity) (stack' : Vector Word Config.stackCapacity) :
    OnlyChanges [.sp, .stack] s { s with sp := sp', stack := stack' } := by
  intro p hp
  cases p with
  | sp | stack => exact absurd (by decide) hp
  | mem | V => exact fun _ => rfl
  | _ => rfl

theorem onlyChanges_pop (sp' : Fin Config.stackCapacity) : OnlyChanges [.sp] s { s with sp := sp' } := by
  intro p hp
  cases p with
  | sp => exact absurd (List.mem_singleton_self _) hp
  | mem | V | stack => exact fun _ => rfl
  | _ => rfl

theorem onlyChanges_timers (dt st : Byte) : OnlyChanges [.DT, .ST] s { s with DT := dt, ST := st } := by
  intro p hp
  cases p with
  | DT | ST => exact absurd (by decide) hp
  | mem | V | stack => exact fun _ => rfl
  | _ => rfl

theorem onlyChanges_writeDT (b : Byte) : OnlyChanges [.DT] s (writeDT b s) := by
  intro p hp
  cases p with
  | DT => exact absurd (List.mem_singleton_self _) hp
  | mem | V | stack => exact fun _ => rfl
  | _ => rfl

theorem onlyChanges_writeST (b : Byte) : OnlyChanges [.ST] s (writeST b s) := by
  intro p hp
  cases p with
  | ST => exact absurd (List.mem_singleton_self _) hp
  | mem | V | stack => exact fun _ => rfl
  | _ => rfl

theorem onlyChanges_nextDraw : OnlyChanges [.draws] s (nextDraw s) := by
  intro p hp
  cases p with
  | draws => exact absurd (List.mem_singleton_self _) hp
  | mem | V | stack => exact fun _ => rfl
  | _ => rfl

theorem onlyChanges_drawAck : OnlyChanges [.drawReady] s (drawAck s) := by
  intro p hp
  cases p with
  | drawReady => exact absurd (List.mem_singleton_self _) hp
  | mem | V | stack => exact fun _ => rfl
  | _ => rfl

/-- Consuming what says whose turn it is. -/
theorem onlyChanges_turn (l : List Event) (a : Option Nat) :
    OnlyChanges [.schedule, .agents] s { s with schedule := l, agents := a } := by
  intro p hp
  cases p with
  | schedule | agents => exact absurd (by decide) hp
  | mem | V | stack => exact fun _ => rfl
  | _ => rfl

theorem onlyChanges_schedule (l : List Event) : OnlyChanges [.schedule] s { s with schedule := l } := by
  intro p hp
  cases p with
  | schedule => exact absurd (List.mem_singleton_self _) hp
  | mem | V | stack => exact fun _ => rfl
  | _ => rfl

theorem onlyChanges_raise (e : ErrorKind) (op addr : Word) : OnlyChanges errorParts s (raise e op addr s) := by
  obtain ⟨_, _, _, _, _, hframe⟩ := raise_raised e op addr s
  exact hframe

theorem onlyChanges_writeRun (k : Nat) (bytes : List Byte) : OnlyChanges [.V] s (writeRun k bytes s) := by
  obtain ⟨V', hV⟩ := writeRun_keeps bytes k s
  rw [hV]
  exact onlyChanges_registers s V'

theorem onlyChanges_writeFlag (c : Bool) : OnlyChanges [.V] s (writeFlag c s) :=
  onlyChanges_writeV flagReg (flagByte c) s

theorem onlyChanges_writeFlagThenResult (c : Bool) (x : Reg) (b : Byte) :
    OnlyChanges [.V] s (writeFlagThenResult c x b s) :=
  ((onlyChanges_writeFlag s c).trans (onlyChanges_writeV x b _)).mono (by simp)

/-! ## The common endings -/

/-- One register written. -/
theorem advance_writeV_spec (x : Reg) (b : Byte) :
    readV (advance (writeV x b s)) x = b ∧ (advance (writeV x b s)).pc = s.pc + 2 ∧
      OtherRegisters [x] s (advance (writeV x b s)) ∧ OnlyChanges [.V, .pc] s (advance (writeV x b s)) :=
  ⟨readV_advance_writeV_self x b s, advance_pc _, otherRegisters_advance_writeV x b s,
    onlyChanges_advance_writeV x b s⟩

/-- One register written with a free value. -/
theorem advance_writeV_nextDraw_spec (x : Reg) (b : Byte) :
    readV (advance (writeV x b (nextDraw s))) x = b ∧ (advance (writeV x b (nextDraw s))).draws = s.draws + 1 ∧
      (advance (writeV x b (nextDraw s))).pc = s.pc + 2 ∧
      OtherRegisters [x] s (advance (writeV x b (nextDraw s))) ∧
      OnlyChanges [.V, .pc, .draws] s (advance (writeV x b (nextDraw s))) := by
  obtain ⟨hval, hpc, hregs, hframe⟩ := advance_writeV_spec (nextDraw s) x b
  exact ⟨hval, rfl, hpc, hregs, ((onlyChanges_nextDraw s).trans hframe).mono (by simp)⟩

/-- A flag and a result written; where both go to VF the result stays (40_alu R120). -/
theorem advance_writeFlagThenResult_spec (c : Bool) (x : Reg) (b : Byte) :
    readV (advance (writeFlagThenResult c x b s)) x = b ∧
      (x ≠ 15 → readV (advance (writeFlagThenResult c x b s)) 15 = flagByte c) ∧
      (advance (writeFlagThenResult c x b s)).pc = s.pc + 2 ∧
      OtherRegisters [x, 15] s (advance (writeFlagThenResult c x b s)) ∧
      OnlyChanges [.V, .pc] s (advance (writeFlagThenResult c x b s)) := by
  refine ⟨?result, fun hx => ?flag, advance_pc _, fun r hr => ?others,
    (onlyChanges_writeFlagThenResult s c x b).trans (onlyChanges_advance _)⟩
  case result => rw [readV_advance, readV_writeFlagThenResult, if_pos rfl]
  case flag => rw [readV_advance, readV_writeFlagThenResult, if_neg (Ne.symm hx), if_pos rfl]
  case others =>
    obtain ⟨hx, hflag⟩ := List.ne_and_not_mem_of_not_mem_cons hr
    rw [readV_advance, readV_writeFlagThenResult, if_neg hx, if_neg (List.ne_of_not_mem_cons hflag)]

end

theorem raiseMemoryBounds_raised (i : Instr) (s : State) :
    Raised 5#4 (encode i) 0x1000#16 s (raiseMemoryBounds i s) := raise_raised .memoryBounds (encode i) firstAbsent s

theorem raiseKeyIndex_raised (i : Instr) (x : Reg) (s : State) :
    Raised 8#4 (encode i) ((readV s x).setWidth 16) s (raiseKeyIndex i x s) :=
  raise_raised .keyIndexBounds (encode i) (wordOfReg s x) s

end Sys2Proof.Machine
end

section
/-! What each instruction answers: an equation per instruction, and one per branch where its meaning branches. -/

namespace Sys2Proof.Machine

section

variable (x y : Reg) (kk : Byte) (nnn : Addr12) (s : State)

/-! ## Instructions without a branch -/

theorem exec_addByte : exec (.addByte x kk) s = .next (advance (writeV x (readV s x + kk) s)) := rfl

theorem exec_ldReg : exec (.ldReg x y) s = .next (advance (writeV x (readV s y) s)) := rfl

theorem exec_orReg : exec (.orReg x y) s = .next (advance (writeV x (readV s x ||| readV s y) s)) := rfl

theorem exec_andReg : exec (.andReg x y) s = .next (advance (writeV x (readV s x &&& readV s y) s)) := rfl

theorem exec_xorReg : exec (.xorReg x y) s = .next (advance (writeV x (readV s x ^^^ readV s y) s)) := rfl

theorem exec_addReg : exec (.addReg x y) s = .next (advance
    (writeFlagThenResult (carryFlag (readV s x) (readV s y)) x (readV s x + readV s y) s)) := rfl

theorem exec_subReg : exec (.subReg x y) s = .next (advance
    (writeFlagThenResult (greaterFlag (readV s x) (readV s y)) x (readV s x - readV s y) s)) := rfl

theorem exec_subnReg : exec (.subnReg x y) s = .next (advance
    (writeFlagThenResult (greaterFlag (readV s y) (readV s x)) x (readV s y - readV s x) s)) := rfl

theorem exec_shr : exec (.shr x y) s = .next (advance
    (writeFlagThenResult (lowBitFlag (readV s x)) x (readV s x >>> 1) s)) := rfl

theorem exec_shl : exec (.shl x y) s = .next (advance
    (writeFlagThenResult (highBitFlag (readV s x)) x (readV s x <<< 1) s)) := rfl

theorem exec_rnd : exec (.rnd x kk) s = .next (advance
    (writeV x (maskedDraw Config.rndMask (drawnByte s) (readV s x) kk) (nextDraw s))) := rfl

theorem exec_sys : exec (.sys nnn) s = .next (raise .decodeError (encode (.sys nnn)) 0x0000#16 s) := rfl

theorem exec_jp : exec (.jp nnn) s = .next (jumpTo (addrOperand nnn) s) := rfl

theorem exec_jpV0 : exec (.jpV0 nnn) s = .next (jumpTo (indexedTarget s nnn) s) := rfl

theorem exec_seReg : exec (.seReg x y) s = .next (skipIf (readV s x == readV s y) s) := rfl

theorem exec_sneReg : exec (.sneReg x y) s = .next (skipIf (readV s x != readV s y) s) := rfl

theorem exec_ldVxDt : exec (.ldVxDt x) s = .next (advance (writeV x s.DT s)) := rfl

theorem exec_ldDtVx : exec (.ldDtVx x) s = .next (advance (writeDT (readV s x) s)) := rfl

theorem exec_ldStVx : exec (.ldStVx x) s = .next (advance (writeST (readV s x) s)) := rfl

theorem exec_ldI : exec (.ldI nnn) s = .next (advance (writeI (addrOperand nnn) s)) := rfl

theorem exec_addI : exec (.addI x) s = .next (advance (writeI (s.I + wordOfReg s x) s)) := rfl

end

/-! ## The call stack -/

theorem exec_call_of_room (nnn : Addr12) (s : State) (h : s.sp.val + 1 < 48) :
    exec (.call nnn) s = .next (jumpTo (addrOperand nnn)
      { s with sp := ⟨s.sp.val + 1, h⟩, stack := s.stack.set (s.sp.val + 1) (s.pc + 2) h }) := by
  rcases pushReturn_cases (s.pc + 2) s with ⟨hfull, _⟩ | ⟨_, hpush⟩
  · omega
  · simp only [exec, execCall, pcAfter_eq, hpush]

theorem exec_call_of_full (nnn : Addr12) (s : State) (h : s.sp.val = 47) :
    exec (.call nnn) s = .next (raise .stackOverflow (encode (.call nnn)) 0x0000#16 s) := by
  rcases pushReturn_cases (pcAfter s) s with ⟨_, hpush⟩ | ⟨hroom, _⟩
  · simp only [exec, execCall, hpush]
  · omega

theorem exec_ret_of_pos (s : State) (h : s.sp.val ≠ 0) :
    ∃ hlt : s.sp.val - 1 < 48, exec .ret s = .next (jumpTo s.stack[s.sp] { s with sp := ⟨s.sp.val - 1, hlt⟩ }) := by
  rcases popReturn_cases s with ⟨hempty, _⟩ | ⟨_, hlt, hpop⟩
  · exact absurd hempty h
  · exact ⟨hlt, by simp only [exec, execRet, hpop]⟩

theorem exec_ret_of_empty (s : State) (h : s.sp.val = 0) :
    exec .ret s = .next (raise .stackUnderflow (encode .ret) 0x0000#16 s) := by
  rcases popReturn_cases s with ⟨_, hpop⟩ | ⟨hne, _⟩
  · simp only [exec, execRet, hpop]
  · exact absurd h hne

/-! ## Keys -/

section

variable (x : Reg) (s : State)

theorem exec_skp_of_key (h : (readV s x).toNat ≤ 15) :
    exec (.skp x) s = .next (skipIf (keyDown s (readV s x).toNat) s) := by
  rcases keyOperand_cases s x with ⟨_, hkey⟩ | ⟨hgt, _⟩
  · simp only [exec, execSkp, hkey]
  · omega

theorem exec_skp_of_no_key (h : (readV s x).toNat > 15) :
    exec (.skp x) s = .next (raiseKeyIndex (.skp x) x s) := by
  rcases keyOperand_cases s x with ⟨hle, _⟩ | ⟨_, hkey⟩
  · omega
  · simp only [exec, execSkp, hkey]

theorem exec_sknp_of_key (h : (readV s x).toNat ≤ 15) :
    exec (.sknp x) s = .next (skipIf (!keyDown s (readV s x).toNat) s) := by
  rcases keyOperand_cases s x with ⟨_, hkey⟩ | ⟨hgt, _⟩
  · simp only [exec, execSknp, hkey]
  · omega

theorem exec_sknp_of_no_key (h : (readV s x).toNat > 15) :
    exec (.sknp x) s = .next (raiseKeyIndex (.sknp x) x s) := by
  rcases keyOperand_cases s x with ⟨hle, _⟩ | ⟨_, hkey⟩
  · omega
  · simp only [exec, execSknp, hkey]

theorem exec_ldVxK_of_none (h : ∀ k, k < 16 → keyDown s k = false) : exec (.ldVxK x) s = .next s := by
  have hempty : pressedKeys s = [] := by
    refine List.eq_nil_iff_forall_not_mem.mpr fun k hk => ?_
    obtain ⟨hlt, hdown⟩ := (mem_pressedKeys s k).mp hk
    exact absurd hdown (by simp [h k hlt])
  have hpick : pickKey (drawnChoice s) (pressedKeys s) = none := (pickKey_none_iff _ _).mpr hempty
  simp only [exec, execLdVxK, hpick]

theorem exec_ldVxK_of_some (h : ∃ k, k < 16 ∧ keyDown s k = true) : ∃ k, k < 16 ∧ keyDown s k = true ∧
    pickKey (drawnChoice s) (pressedKeys s) = some k ∧
    exec (.ldVxK x) s = .next (advance (writeV x (BitVec.ofNat 8 k) (nextDraw s))) := by
  obtain ⟨j, hj⟩ := h
  cases hpick : pickKey (drawnChoice s) (pressedKeys s) with
  | none =>
    have hempty : pressedKeys s = [] := (pickKey_none_iff _ _).mp hpick
    exact absurd ((mem_pressedKeys s j).mpr hj) (by simp [hempty])
  | some k =>
    obtain ⟨hlt, hdown⟩ := (mem_pressedKeys s k).mp (pickKey_mem _ _ k hpick)
    exact ⟨k, hlt, hdown, rfl, by simp only [exec, execLdVxK, hpick]⟩

/-- The keypad either holds the wait or ends it. -/
theorem no_key_or_some_key : (∀ k, k < 16 → keyDown s k = false) ∨ ∃ k, k < 16 ∧ keyDown s k = true := by
  by_cases h : ∃ k, k < 16 ∧ keyDown s k = true
  · exact .inr h
  · exact .inl fun k hk => Bool.eq_false_iff.mpr fun hdown => h ⟨k, hk, hdown⟩

end

/-! ## Memory and display -/

/-- The bytes written from `I` up, with no look at the bounds. -/
def stored (bytes : List Byte) (s : State) : State := { s with mem := Memory.writeList s.mem s.I.toNat bytes }

/-- The state Dxyn leaves where its sprite lies in memory. -/
def drawn (x y : Reg) (n : Nibble) (s : State) : State :=
  let picture := drawSprite x y (Memory.readList s.mem s.I.toNat n.toNat) s
  advance (showPixels picture.1 (writeFlag picture.2 s))

section

variable (x y : Reg) (n : Nibble) (s : State)

theorem exec_drw_of_inRange (h : n.toNat = 0 ∨ s.I.toNat + n.toNat ≤ 0x1000) :
    exec (.drw x y n) s = .next (drawn x y n s) := by
  rcases loadBytes_cases s n.toNat with ⟨_, hload⟩ | ⟨hpast, _⟩
  · simp only [exec, execDrw, hload, drawn]
  · exact absurd h hpast

theorem exec_drw_of_past (h : ¬(n.toNat = 0 ∨ s.I.toNat + n.toNat ≤ 0x1000)) :
    exec (.drw x y n) s = .next (raiseMemoryBounds (.drw x y n) s) := by
  rcases loadBytes_cases s n.toNat with ⟨hin, _⟩ | ⟨_, hload⟩
  · exact absurd hin h
  · simp only [exec, execDrw, hload]

theorem exec_ldB_of_inRange (h : s.I.toNat + 2 ≤ 0xFFF) :
    exec (.ldB x) s = .next (advance (stored (bcdDigits (readV s x)) s)) := by
  rcases storeBytes_cases (bcdDigits (readV s x)) s (List.cons_ne_nil _ _) with ⟨_, hstore⟩ | ⟨hpast, _⟩
  · simp only [exec, execLdB, hstore, stored]
  · simp only [bcdDigits, List.length_cons, List.length_nil] at hpast
    omega

theorem exec_ldB_of_past (h : s.I.toNat + 2 > 0xFFF) :
    exec (.ldB x) s = .next (raiseMemoryBounds (.ldB x) s) := by
  rcases storeBytes_cases (bcdDigits (readV s x)) s (List.cons_ne_nil _ _) with ⟨hin, _⟩ | ⟨_, hstore⟩
  · simp only [bcdDigits, List.length_cons, List.length_nil] at hin
    omega
  · simp only [exec, execLdB, hstore]

theorem registerRun_ne_nil : registerRun s x ≠ [] := by
  intro h
  have hlen := registerRun_length s x
  rw [h, List.length_nil] at hlen
  omega

theorem exec_ldMemVx_of_inRange (h : s.I.toNat + x.val ≤ 0xFFF) :
    exec (.ldMemVx x) s = .next (advance (stored (registerRun s x) s)) := by
  rcases storeBytes_cases (registerRun s x) s (registerRun_ne_nil x s) with ⟨_, hstore⟩ | ⟨hpast, _⟩
  · simp only [exec, execLdMemVx, hstore, stored]
  · rw [registerRun_length] at hpast
    omega

theorem exec_ldMemVx_of_past (h : s.I.toNat + x.val > 0xFFF) :
    exec (.ldMemVx x) s = .next (raiseMemoryBounds (.ldMemVx x) s) := by
  rcases storeBytes_cases (registerRun s x) s (registerRun_ne_nil x s) with ⟨hin, _⟩ | ⟨_, hstore⟩
  · rw [registerRun_length] at hin
    omega
  · simp only [exec, execLdMemVx, hstore]

theorem exec_ldVxMem_of_inRange (h : s.I.toNat + x.val ≤ 0xFFF) : exec (.ldVxMem x) s =
    .next (advance (writeRun 0 (Memory.readList s.mem s.I.toNat (x.val + 1)) s)) := by
  rcases loadBytes_cases s (x.val + 1) with ⟨_, hload⟩ | ⟨hpast, _⟩
  · simp only [exec, execLdVxMem, hload]
  · omega

theorem exec_ldVxMem_of_past (h : s.I.toNat + x.val > 0xFFF) :
    exec (.ldVxMem x) s = .next (raiseMemoryBounds (.ldVxMem x) s) := by
  rcases loadBytes_cases s (x.val + 1) with ⟨hin, _⟩ | ⟨_, hload⟩
  · omega
  · simp only [exec, execLdVxMem, hload]

end

end Sys2Proof.Machine
end

section
/-! Register arithmetic, logic, shifts and the random byte (40_alu sections 2 to 5). -/

namespace Sys2Proof.Machine

/-- Settles O11: one register written, with a sum that bytes reduce on their own. -/
theorem addByteWrapsWithoutFlag : Obligations.AddByteWrapsWithoutFlag := by
  intro x kk s
  obtain ⟨hval, hpc, hregs, hframe⟩ := advance_writeV_spec s x (readV s x + kk)
  exact ⟨_, exec_addByte x kk s, by rw [hval, BitVec.toNat_add], hpc, hregs, hframe⟩

/-- The word R95 gives for 8xy0 is the encoder's. -/
theorem encode_ldReg (x y : Reg) :
    encode (.ldReg x y) = 0x8#4 ++ (BitVec.ofFin x : Nibble) ++ (BitVec.ofFin y : Nibble) ++ 0x0#4 := rfl

/-- Settles O12: the word is the encoder's, and one register is written. -/
theorem copyRegister : Obligations.CopyRegister := by
  intro x y s
  constructor
  · rw [← encode_ldReg]
    exact Laws.RoundTrip.ldReg x y rfl
  · exact ⟨_, exec_ldReg x y s, advance_writeV_spec s x (readV s y)⟩

/-- Settles O13: the three differ in the byte they write alone. -/
theorem logicWorksBitwiseWithoutFlag : Obligations.LogicWorksBitwiseWithoutFlag := by
  intro x y s
  have hspec := advance_writeV_spec s x
  refine ⟨?or, ?and, ?xor⟩
  case or =>
    obtain ⟨hval, hrest⟩ := hspec (readV s x ||| readV s y)
    exact ⟨_, exec_orReg x y s, fun b => by rw [hval, BitVec.getLsbD_or], hrest⟩
  case and =>
    obtain ⟨hval, hrest⟩ := hspec (readV s x &&& readV s y)
    exact ⟨_, exec_andReg x y s, fun b => by rw [hval, BitVec.getLsbD_and], hrest⟩
  case xor =>
    obtain ⟨hval, hrest⟩ := hspec (readV s x ^^^ readV s y)
    exact ⟨_, exec_xorReg x y s, fun b => by rw [hval, BitVec.getLsbD_xor], hrest⟩

/-! ## Flags -/

theorem flagByte_decide (p : Prop) [Decidable p] : flagByte (decide p) = if p then 1#8 else 0#8 := by
  by_cases hp : p <;> simp [flagByte, hp]

theorem flagByte_toNat (c : Bool) : (flagByte c).toNat = c.toNat := by
  cases c <;> rfl

theorem lowBitFlag_toNat (a : Byte) : (lowBitFlag a).toNat = a.toNat % 2 := by
  rw [lowBitFlag, BitVec.getLsbD, Nat.toNat_testBit, Nat.pow_zero, Nat.div_one]

theorem highBitFlag_toNat (a : Byte) : (highBitFlag a).toNat = a.toNat / 128 := by
  have hlt : a.toNat < 256 := a.isLt
  rw [highBitFlag, BitVec.getLsbD, Nat.toNat_testBit]
  omega

/-- Settles O14: the flag is written before the sum, so it is seen where x is not VF. -/
theorem addRegisterSetsCarry : Obligations.AddRegisterSetsCarry := by
  intro x y s
  obtain ⟨hval, hflag, hrest⟩ := advance_writeFlagThenResult_spec s
    (carryFlag (readV s x) (readV s y)) x (readV s x + readV s y)
  exact ⟨_, exec_addReg x y s, by rw [hval, BitVec.toNat_add], fun hx => (hflag hx).trans (flagByte_decide _), hrest⟩

/-- A byte difference as the specification writes it. -/
theorem sub_byte_toNat (a b : Byte) : (a - b).toNat = (a.toNat + 256 - b.toNat) % 256 := by
  have hlt : b.toNat < 256 := b.isLt
  rw [BitVec.toNat_sub]
  omega

/-- Settles O15: the two subtractions are one with the operands exchanged. -/
theorem subtractSetsStrictNotBorrow : Obligations.SubtractSetsStrictNotBorrow := by
  intro x y s
  have hspec := fun a b : Byte => advance_writeFlagThenResult_spec s (greaterFlag a b) x (a - b)
  constructor
  · obtain ⟨hval, hflag, hrest⟩ := hspec (readV s x) (readV s y)
    exact ⟨_, exec_subReg x y s, by rw [hval, sub_byte_toNat], fun hx => (hflag hx).trans (flagByte_decide _), hrest⟩
  · obtain ⟨hval, hflag, hrest⟩ := hspec (readV s y) (readV s x)
    exact ⟨_, exec_subnReg x y s, by rw [hval, sub_byte_toNat], fun hx => (hflag hx).trans (flagByte_decide _), hrest⟩

/-- Settles O16: what a shift by one bit drops is the bit the flag keeps. -/
theorem shiftMovesOneBitToFlag : Obligations.ShiftMovesOneBitToFlag := by
  intro x y s
  constructor
  · obtain ⟨hval, hflag, hrest⟩ := advance_writeFlagThenResult_spec s (lowBitFlag (readV s x)) x (readV s x >>> 1)
    refine ⟨_, exec_shr x y s, ?_, fun hx => by rw [hflag hx, flagByte_toNat, lowBitFlag_toNat], hrest⟩
    rw [hval, BitVec.toNat_ushiftRight, Nat.shiftRight_eq_div_pow, Nat.pow_one]
  · obtain ⟨hval, hflag, hrest⟩ := advance_writeFlagThenResult_spec s (highBitFlag (readV s x)) x (readV s x <<< 1)
    refine ⟨_, exec_shl x y s, ?_, fun hx => by rw [hflag hx, flagByte_toNat, highBitFlag_toNat], hrest⟩
    rw [hval, BitVec.toNat_shiftLeft, Nat.shiftLeft_eq, Nat.pow_one]

/-- Settles O17: `RND_MASK` has two readings and the draw is any byte. -/
theorem randomMasksTheDraw : Obligations.RandomMasksTheDraw := by
  intro x kk s
  obtain ⟨hval, hrest⟩ := advance_writeV_nextDraw_spec s x
    (maskedDraw Config.rndMask (drawnByte s) (readV s x) kk)
  refine ⟨_, exec_rnd x kk s, ?_, hrest⟩
  rw [hval]
  cases Config.rndMask with
  | dest => exact .inl ⟨rfl, rfl⟩
  | imm => exact .inr ⟨rfl, rfl⟩

end Sys2Proof.Machine
end

section
/-! Control transfer (42_control). -/

namespace Sys2Proof.Machine

/-! ## SYS and the jumps -/

/-- Settles O22: the error entry is the whole effect. -/
theorem sysRaisesDecodeError : Obligations.SysRaisesDecodeError := by
  intro nnn s
  exact ⟨_, exec_sys nnn s, raise_raised .decodeError (encode (.sys nnn)) 0x0000#16 s⟩

/-- The word R95 gives for 1nnn is the encoder's. -/
theorem encode_jp (nnn : Addr12) : encode (.jp nnn) = 0x1#4 ++ nnn := rfl

theorem addrOperand_toNat (nnn : Addr12) : (addrOperand nnn).toNat = nnn.toNat :=
  BitVec.toNat_setWidth_of_le (by decide)

theorem wordOfReg_toNat (s : State) (x : Reg) : (wordOfReg s x).toNat = (readV s x).toNat :=
  BitVec.toNat_setWidth_of_le (by decide)

/-- The largest sum is 0xFFF + 0xFF, so 16 bits hold it unreduced (42_control R169). -/
theorem indexedTarget_toNat (s : State) (nnn : Addr12) :
    (indexedTarget s nnn).toNat = nnn.toNat + (readV s 0).toNat := by
  have hn : nnn.toNat < 4096 := nnn.isLt
  have hv : (readV s 0).toNat < 256 := (readV s 0).isLt
  rw [indexedTarget, BitVec.toNat_add, addrOperand_toNat, wordOfReg_toNat]
  omega

/-- Settles O23: the word is the encoder's, and the jump writes `pc` alone. -/
theorem jumpSetsPc : Obligations.JumpSetsPc := by
  intro nnn s
  constructor
  · rw [← encode_jp]
    exact Laws.RoundTrip.jp nnn rfl
  · exact ⟨_, exec_jp nnn s, addrOperand_toNat nnn, onlyChanges_jumpTo _ s⟩

/-- Settles O24: the target is the unreduced sum. -/
theorem indexedJumpAddsV0 : Obligations.IndexedJumpAddsV0 := by
  intro nnn s
  exact ⟨_, exec_jpV0 nnn s, indexedTarget_toNat s nnn, onlyChanges_jumpTo _ s⟩

/-! ## Call and return -/

/-- Settles O25: the push writes one slot, and its frame composes with the jump's. -/
theorem callPushesReturnAddress : Obligations.CallPushesReturnAddress := by
  intro nnn s hsp
  refine ⟨_, exec_call_of_room nnn s (by omega), rfl, fun k => ?slot, addrOperand_toNat nnn,
    (onlyChanges_push s _ _).trans (onlyChanges_jumpTo _ _)⟩
  case slot =>
    rw [jumpTo_stack, Fin.getElem_fin, Vector.getElem_set]
    simp only [eq_comm, Fin.getElem_fin]

/-- Settles O26: the pop reads the slot and moves `sp`; the jump writes `pc`. -/
theorem returnPopsIntoPc : Obligations.ReturnPopsIntoPc := by
  intro s hsp
  obtain ⟨hlt, hexec⟩ := exec_ret_of_pos s (by omega)
  exact ⟨_, hexec, rfl, Nat.sub_add_cancel hsp, (onlyChanges_pop s _).trans (onlyChanges_jumpTo _ _)⟩

/-- Settles O27: the push and the pop are refused at the two ends. -/
theorem callAndReturnTrapAtStackEnds : Obligations.CallAndReturnTrapAtStackEnds := by
  constructor
  · intro nnn s hsp
    exact ⟨_, exec_call_of_full nnn s hsp, raise_raised .stackOverflow (encode (.call nnn)) 0x0000#16 s⟩
  · intro s hsp
    exact ⟨_, exec_ret_of_empty s hsp, raise_raised .stackUnderflow (encode .ret) 0x0000#16 s⟩

/-- Settles O28: the return reads the slot the call wrote. -/
theorem callThenReturnComesBack : Obligations.CallThenReturnComesBack := by
  intro nnn s hsp
  obtain ⟨t, hcall, htsp, hslots, _, hcallFrame⟩ := callPushesReturnAddress nnn s hsp
  obtain ⟨u, hret, hupc, husp, hretFrame⟩ := returnPopsIntoPc t (by omega)
  refine ⟨t, u, hcall, hret, ?pc, Fin.ext (by omega), fun p hp => ?frame⟩
  case pc =>
    rw [hupc]
    exact (hslots t.sp).trans (if_pos htsp)
  case frame =>
    by_cases hpsp : p = .sp
    · subst hpsp
      exact Fin.ext (by omega)
    · exact (hcallFrame.trans hretFrame) p (by simp_all)

/-! ## Skips -/

/-- The bits R95 gives for 5xy_ and 9xy_ are those of format R. -/
theorem formatR_bits (c : Nibble) (x y : Reg) (n : Nibble) :
    formatR c x y n = c ++ (BitVec.ofFin x : Nibble) ++ (BitVec.ofFin y : Nibble) ++ n := rfl

theorem decode_seReg (x y : Reg) (n : Nibble) : decode (formatR 0x5#4 x y n) = .instr (.seReg x y) := by
  simp [decode, classField_formatR, xField_formatR, yField_formatR]

theorem decode_sneReg (x y : Reg) (n : Nibble) : decode (formatR 0x9#4 x y n) = .instr (.sneReg x y) := by
  simp [decode, classField_formatR, xField_formatR, yField_formatR]

/-- Settles O30: the low nibble of format R plays no part in the two classes. -/
theorem skipComparesRegisters : Obligations.SkipComparesRegisters := by
  intro x y s
  refine ⟨fun n => ?decodeSe, fun n => ?decodeSne, ?se, ?sne⟩
  case decodeSe => rw [← formatR_bits, decode_seReg]
  case decodeSne => rw [← formatR_bits, decode_sneReg]
  case se => exact ⟨_, exec_seReg x y s, skipIf_beq_pc _ _ s, onlyChanges_skipIf _ s⟩
  case sne => exact ⟨_, exec_sneReg x y s, skipIf_bne_pc _ _ s, onlyChanges_skipIf _ s⟩

/-- Settles O31: the register names a key, whose bit is the condition. -/
theorem keySkipsSampleTheKey : Obligations.KeySkipsSampleTheKey := by
  intro x s hkey
  refine ⟨⟨_, exec_skp_of_key x s hkey, skipIf_pc .., onlyChanges_skipIf _ s⟩,
    ⟨_, exec_sknp_of_key x s hkey, ?_, onlyChanges_skipIf _ s⟩⟩
  rw [skipIf_pc]
  cases keyDown s (readV s x).toNat <;> rfl

/-- Settles O32: no key has the register's number, so both take the error entry. -/
theorem keySkipsTrapAboveFifteen : Obligations.KeySkipsTrapAboveFifteen := by
  intro x s hkey
  exact ⟨⟨_, exec_skp_of_no_key x s hkey, raiseKeyIndex_raised (.skp x) x s⟩,
    ⟨_, exec_sknp_of_no_key x s hkey, raiseKeyIndex_raised (.sknp x) x s⟩⟩

end Sys2Proof.Machine
end

section
/-! Keys and timers (43_keys_timers) and the index register (44_memory_index section 1). -/

namespace Sys2Proof.Machine

/-- The words R95 gives for Fx07, Fx15 and Fx18 are the encoder's. -/
theorem encode_ldVxDt (x : Reg) : encode (.ldVxDt x) = 0xF#4 ++ (BitVec.ofFin x : Nibble) ++ 0x07#8 := rfl

theorem encode_ldDtVx (x : Reg) : encode (.ldDtVx x) = 0xF#4 ++ (BitVec.ofFin x : Nibble) ++ 0x15#8 := rfl

theorem encode_ldStVx (x : Reg) : encode (.ldStVx x) = 0xF#4 ++ (BitVec.ofFin x : Nibble) ++ 0x18#8 := rfl

/-- Settles O33: the words are the encoder's, and each move is one write. -/
theorem timerMovesCopyBytes : Obligations.TimerMovesCopyBytes := by
  intro x s
  rw [← encode_ldVxDt, ← encode_ldDtVx, ← encode_ldStVx]
  exact ⟨Laws.RoundTrip.ldVxDt x rfl, Laws.RoundTrip.ldDtVx x rfl, Laws.RoundTrip.ldStVx x rfl,
    ⟨_, exec_ldVxDt x s, advance_writeV_spec s x s.DT⟩,
    ⟨_, exec_ldDtVx x s, rfl, advance_pc _, (onlyChanges_writeDT s _).trans (onlyChanges_advance _)⟩,
    ⟨_, exec_ldStVx x s, rfl, advance_pc _, (onlyChanges_writeST s _).trans (onlyChanges_advance _)⟩⟩

/-- Settles O34: with no key down the list of pressed keys is empty. -/
theorem waitForKeyHoldsWithoutKey : Obligations.WaitForKeyHoldsWithoutKey :=
  fun x s hnone => exec_ldVxK_of_none x s hnone

/-- Settles O35: whatever the pick is, it is among the keys that are down. -/
theorem waitForKeyTakesAPressedKey : Obligations.WaitForKeyTakesAPressedKey := by
  intro x s j hj hdown
  obtain ⟨k, hk, hkdown, _, hexec⟩ := exec_ldVxK_of_some x s ⟨j, hj, hdown⟩
  obtain ⟨hval, hrest⟩ := advance_writeV_nextDraw_spec s x (BitVec.ofNat 8 k)
  have hnat : (BitVec.ofNat 8 k).toNat = k := by
    rw [BitVec.toNat_ofNat]
    omega
  exact ⟨_, hexec, by rwa [hval, hnat], by rwa [hval, hnat], hrest⟩

/-- The word R95 gives for Annn is the encoder's. -/
theorem encode_ldI (nnn : Addr12) : encode (.ldI nnn) = 0xA#4 ++ nnn := rfl

/-- Settles O36: a 12-bit address is stored as it is. -/
theorem loadIndexSetsI : Obligations.LoadIndexSetsI := by
  intro nnn s
  have hn : nnn.toNat < 4096 := nnn.isLt
  constructor
  · rw [← encode_ldI]
    exact Laws.RoundTrip.ldI nnn rfl
  · refine ⟨_, exec_ldI nnn s, ?_, advance_pc _, onlyChanges_advance_writeI _ s⟩
    rw [advance_I, writeI_toNat, addrOperand_toNat, Nat.mod_eq_of_lt hn]

/-- Settles O38: the 16-bit sum loses multiples of 65536 alone, which 4096 divides. -/
theorem addIndexWrapsAtTwelveBits : Obligations.AddIndexWrapsAtTwelveBits := by
  intro x s
  refine ⟨_, exec_addI x s, ?_, advance_pc _, onlyChanges_advance_writeI _ s⟩
  rw [advance_I, writeI_toNat, BitVec.toNat_add, wordOfReg_toNat]
  exact Nat.mod_mod_of_dvd _ (by decide)

end Sys2Proof.Machine
end

section
/-! Memory through `I`: Fx33, Fx55 and Fx65 (44_memory_index section 2). -/

namespace Sys2Proof.Machine

section

variable {bytes : List Byte} {s : State}

theorem readByte_advance (a : Nat) : readByte (advance s) a = readByte s a := rfl

theorem readByte_stored_inside (h : s.I.toNat + bytes.length ≤ 4096) {k : Nat} (hk : k < bytes.length) :
    readByte (stored bytes s) (s.I.toNat + k) = bytes.getD k 0#8 := by
  rw [stored, readByte_stored _ _ _ h, if_pos (by omega), Nat.add_sub_cancel_left]

theorem readByte_stored_outside (h : s.I.toNat + bytes.length ≤ 4096) {a : Nat}
    (ha : a < s.I.toNat ∨ s.I.toNat + bytes.length ≤ a) : readByte (stored bytes s) a = readByte s a := by
  rw [stored, readByte_stored _ _ _ h, if_neg (by omega)]

theorem onlyChanges_advance_stored : OnlyChanges [.mem, .pc] s (advance (stored bytes s)) :=
  (onlyChanges_memory s _).trans (onlyChanges_advance _)

end

/-- The words R95 gives for Fx33, Fx55 and Fx65 are the encoder's. -/
theorem encode_ldB (x : Reg) : encode (.ldB x) = 0xF#4 ++ (BitVec.ofFin x : Nibble) ++ 0x33#8 := rfl

theorem encode_ldMemVx (x : Reg) : encode (.ldMemVx x) = 0xF#4 ++ (BitVec.ofFin x : Nibble) ++ 0x55#8 := rfl

theorem encode_ldVxMem (x : Reg) : encode (.ldVxMem x) = 0xF#4 ++ (BitVec.ofFin x : Nibble) ++ 0x65#8 := rfl

theorem bcdDigits_length (v : Byte) : (bcdDigits v).length = 3 := rfl

/-- Each digit is below 10, so a byte holds it. -/
theorem bcdDigits_toNat (v : Byte) : ((bcdDigits v).getD 0 0#8).toNat = v.toNat / 100 ∧
    ((bcdDigits v).getD 1 0#8).toNat = v.toNat / 10 % 10 ∧ ((bcdDigits v).getD 2 0#8).toNat = v.toNat % 10 := by
  have hv : v.toNat < 256 := v.isLt
  simp only [bcdDigits, List.getD_cons_zero, List.getD_cons_succ, BitVec.toNat_ofNat]
  omega

/-- Settles O39: the digits are the bytes of the run written from `I`. -/
theorem bcdStoresThreeDigits : Obligations.BcdStoresThreeDigits := by
  intro x s
  rw [← encode_ldB]
  refine ⟨Laws.RoundTrip.ldB x rfl, fun hin => ?inRange, fun hpast => ?past⟩
  case inRange =>
    have hfits : s.I.toNat + (bcdDigits (readV s x)).length ≤ 4096 := by
      rw [bcdDigits_length]
      omega
    have hdigit : ∀ k < 3, readByte (advance (stored (bcdDigits (readV s x)) s)) (s.I.toNat + k) =
        (bcdDigits (readV s x)).getD k 0#8 := fun k hk => readByte_stored_inside hfits hk
    obtain ⟨hhundreds, htens, hones⟩ := bcdDigits_toNat (readV s x)
    exact ⟨_, exec_ldB_of_inRange x s hin, (congrArg BitVec.toNat (hdigit 0 (by decide))).trans hhundreds,
      (congrArg BitVec.toNat (hdigit 1 (by decide))).trans htens,
      (congrArg BitVec.toNat (hdigit 2 (by decide))).trans hones,
      fun a ha => readByte_stored_outside hfits ha, advance_pc _, onlyChanges_advance_stored⟩
  case past => exact ⟨_, exec_ldB_of_past x s hpast, raiseMemoryBounds_raised (.ldB x) s⟩

/-- Settles O40: the `r`-th byte of the run is register `r`. -/
theorem registerDumpStoresRun : Obligations.RegisterDumpStoresRun := by
  intro x s
  have hlen := registerRun_length s x
  rw [← encode_ldMemVx]
  refine ⟨Laws.RoundTrip.ldMemVx x rfl, fun hin => ?inRange, fun hpast => ?past⟩
  case inRange =>
    have hfits : s.I.toNat + (registerRun s x).length ≤ 4096 := by omega
    refine ⟨_, exec_ldMemVx_of_inRange x s hin, fun r hr => ?run, fun a ha => ?others, advance_pc _,
      onlyChanges_advance_stored⟩
    case run => rw [readByte_advance, readByte_stored_inside hfits (by omega), registerRun_getD s x r hr]
    case others => rw [readByte_advance, readByte_stored_outside hfits (by omega)]
  case past => exact ⟨_, exec_ldMemVx_of_past x s hpast, raiseMemoryBounds_raised (.ldMemVx x) s⟩

/-- Settles O41: register `r` is the `r`-th byte of the run. -/
theorem registerLoadReadsRun : Obligations.RegisterLoadReadsRun := by
  intro x s
  rw [← encode_ldVxMem]
  refine ⟨Laws.RoundTrip.ldVxMem x rfl, fun hin => ?inRange, fun hpast => ?past⟩
  case inRange =>
    have hlen := Memory.readList_length s.mem s.I.toNat (x.val + 1)
    have hpc : (writeRun 0 (Memory.readList s.mem s.I.toNat (x.val + 1)) s).pc = s.pc :=
      onlyChanges_writeRun s 0 _ .pc (by decide)
    refine ⟨_, exec_ldVxMem_of_inRange x s hin, fun r hr => ?run, fun r hr => ?others, by rw [advance_pc, hpc],
      (onlyChanges_writeRun s 0 _).trans (onlyChanges_advance _)⟩
    case run =>
      rw [readV_advance, readV_writeRun, if_pos (by omega), Nat.sub_zero,
        Memory.readList_getD _ _ _ _ _ (by omega)]
      rfl
    case others => rw [readV_advance, readV_writeRun, if_neg (by omega)]
  case past => exact ⟨_, exec_ldVxMem_of_past x s hpast, raiseMemoryBounds_raised (.ldVxMem x) s⟩

/-- Settles O42: the load's bytes are the ones the store wrote. -/
theorem dumpThenLoadRestores : Obligations.DumpThenLoadRestores := by
  intro x s hin
  obtain ⟨_, hdump, _⟩ := registerDumpStoresRun x s
  obtain ⟨t, hstore, hrun, _⟩ := hdump hin
  refine ⟨t, hstore, fun u hmem hI => ?_⟩
  obtain ⟨_, hload, _⟩ := registerLoadReadsRun x u
  obtain ⟨v, hexec, hregs, _⟩ := hload (by rwa [hI])
  refine ⟨v, hexec, fun r hr => ?_⟩
  have hbyte : ∀ a, readByte u a = readByte t a := fun a => congrArg (Memory.read · a) hmem
  rw [hregs r hr, hI, hbyte, hrun r hr]

/-- A word can be fetched at an even address below 0xFFF. -/
theorem fetch_of_even {s : State} (hlt : s.pc.toNat < 0xFFF) (heven : s.pc.toNat % 2 = 0) :
    fetch s = .word (wordOfBytes (readByte s s.pc.toNat) (readByte s (s.pc.toNat + 1))) := by
  rcases fetch_cases s with ⟨hpc, _⟩ | ⟨hpc, _⟩ | ⟨_, hpc, _⟩ | ⟨_, _, hfetch⟩
  · omega
  · omega
  · omega
  · exact hfetch

/-- Settles O43: the store begins where the next fetch does. -/
theorem storeIsSeenByTheNextFetch : Obligations.StoreIsSeenByTheNextFetch := by
  intro x s hx hin hI heven
  obtain ⟨_, hdump, _⟩ := registerDumpStoresRun x s
  obtain ⟨t, hstore, hrun, _, hpc, _⟩ := hdump hin
  have htpc : t.pc = s.I := hpc.trans hI.symm
  have hIeven : s.I.toNat % 2 = 0 := by
    rw [hI, BitVec.toNat_add]
    change (s.pc.toNat + 2) % 65536 % 2 = 0
    omega
  have hfirst : readByte t s.I.toNat = readV s 0 := hrun 0 (Nat.zero_le _)
  have hsecond : readByte t (s.I.toNat + 1) = readV s 1 := hrun 1 hx
  refine ⟨t, hstore, ?_⟩
  rw [fetch_of_even (by rw [htpc]; omega) (by rw [htpc, hIeven]), htpc, hfirst, hsecond]

end Sys2Proof.Machine
end

section
/-! The sprite draw Dxyn (41_display section 1). -/

namespace Sys2Proof.Machine

section

variable (x y : Reg) (n : Nibble) (s : State)

/-- The buffer indices of the sprite's set bits. -/
def spriteIndices : List Nat :=
  spritePixels (readV s x) (readV s y) 0 (Memory.readList s.mem s.I.toNat n.toNat)

theorem spriteIndices_nodup : (spriteIndices x y n s).Nodup := by
  have hn : n.toNat < 16 := n.isLt
  exact nodup_spritePixels _ _ _ 0 (by rw [Memory.readList_length]; omega)

theorem spriteIndices_lt {i : Nat} (hi : i ∈ spriteIndices x y n s) : i < 2048 := by
  obtain ⟨k, c, _, _, _, rfl⟩ := (mem_spritePixels _ _ _ 0 i).mp hi
  exact pixelIndex_lt _ _ _ _

/-- An index of the list is a covered pixel's, and the other way round: the index gives the column and the row back. -/
theorem mem_spriteIndices {col row : Nat} (hcol : col < 64) :
    col + row * 64 ∈ spriteIndices x y n s ↔ Covered s (readV s x) (readV s y) n.toNat col row := by
  rw [spriteIndices, mem_spritePixels]
  simp only [Memory.readList_length, Nat.zero_add, pixelIndex, Config.dispW, Config.dispH]
  constructor
  · rintro ⟨r, c, hr, hc, hbit, hindex⟩
    rw [Memory.readList_getD _ _ _ _ _ hr] at hbit
    exact ⟨r, c, hr, hc, hbit, by omega, by omega⟩
  · rintro ⟨r, c, hr, hc, hbit, rfl, rfl⟩
    exact ⟨r, c, hr, hc, by rwa [Memory.readList_getD _ _ _ _ _ hr], rfl⟩

end

section

variable {s : State}

theorem Covered.col_lt {vx vy : Byte} {len col row : Nat} (h : Covered s vx vy len col row) : col < 64 := by
  obtain ⟨_, _, _, _, _, rfl, _⟩ := h
  omega

theorem Covered.row_lt {vx vy : Byte} {len col row : Nat} (h : Covered s vx vy len col row) : row < 32 := by
  obtain ⟨_, _, _, _, _, _, rfl⟩ := h
  omega

end

section

variable (x y : Reg) (n : Nibble) (s : State)

theorem drawSprite_pixel (i : Nat) :
    (drawSprite x y (Memory.readList s.mem s.I.toNat n.toNat) s).1.getLsbD i =
      (s.fb.getLsbD i ^^ decide (i ∈ spriteIndices x y n s)) := by
  obtain ⟨hpixels, _⟩ := xorPixels_spec _ s.fb false (spriteIndices_nodup x y n s) fun _ => spriteIndices_lt x y n s
  exact hpixels i

theorem drawSprite_collision :
    (drawSprite x y (Memory.readList s.mem s.I.toNat n.toNat) s).2 = true ↔
      ∃ col row, Covered s (readV s x) (readV s y) n.toNat col row ∧ pixelAt s col row = true := by
  obtain ⟨_, hflag⟩ := xorPixels_spec _ s.fb false (spriteIndices_nodup x y n s) fun _ => spriteIndices_lt x y n s
  refine hflag.trans ⟨?_, ?_⟩
  · rintro (hfalse | ⟨i, hi, hset⟩)
    · cases hfalse
    · have hsplit : i % 64 + i / 64 * 64 = i := by omega
      refine ⟨i % 64, i / 64, (mem_spriteIndices x y n s (by omega)).mp (by rwa [hsplit]), ?_⟩
      rwa [pixelAt, hsplit]
  · rintro ⟨col, row, hcov, hset⟩
    exact .inr ⟨_, (mem_spriteIndices x y n s hcov.col_lt).mpr hcov, hset⟩

theorem pixelAt_drawn {col row : Nat} (hcol : col < 64)
    [Decidable (Covered s (readV s x) (readV s y) n.toNat col row)] :
    pixelAt (drawn x y n s) col row =
      (pixelAt s col row ^^ decide (Covered s (readV s x) (readV s y) n.toNat col row)) := by
  simp only [drawn, pixelAt_advance, pixelAt_showPixels, drawSprite_pixel, mem_spriteIndices x y n s hcol]
  rfl

theorem readV_drawn (r : Reg) : readV (drawn x y n s) r =
    if r = 15 then flagByte (drawSprite x y (Memory.readList s.mem s.I.toNat n.toNat) s).2 else readV s r := by
  rw [drawn, readV_advance, readV_showPixels, readV_writeFlag]

theorem onlyChanges_drawn : OnlyChanges [.V, .fb, .drawReady, .pc] s (drawn x y n s) :=
  (onlyChanges_writeFlag s _).trans (onlyChanges_advance_showPixels _ _)

end

/-- Settles O19: the loop's list of pixels holds each covered pixel once, so the flips are one per covered pixel. -/
theorem drawFlipsCoveredPixels : Obligations.DrawFlipsCoveredPixels := by
  classical
  intro x y n s hin
  have hcollision := drawSprite_collision x y n s
  refine ⟨_, exec_drw_of_inRange x y n s hin, fun col row hcol _ => ⟨fun hcov => ?flipped, fun hcov => ?kept⟩,
    fun hset => ?hit, fun hclear => ?miss, rfl, rfl, fun r hr => ?others, onlyChanges_drawn x y n s⟩
  case flipped => rw [pixelAt_drawn x y n s hcol, decide_eq_true hcov, Bool.xor_true]
  case kept => rw [pixelAt_drawn x y n s hcol, decide_eq_false hcov, Bool.xor_false]
  case hit => rw [readV_drawn, if_pos rfl, hcollision.mpr hset]; rfl
  case miss =>
    have hnone : (drawSprite x y (Memory.readList s.mem s.I.toNat n.toNat) s).2 = false := by
      refine Bool.eq_false_iff.mpr fun hhit => ?_
      obtain ⟨col, row, hcov, hset⟩ := hcollision.mp hhit
      exact absurd hset (by simp [hclear col row hcov])
    rw [readV_drawn, if_pos rfl, hnone]
    rfl
  case others => rw [readV_drawn, if_neg (List.ne_of_not_mem_cons hr)]

theorem Covered.congr {s t : State} (hI : t.I = s.I) (hmem : ∀ a, readByte t a = readByte s a)
    (vx vy : Byte) (len col row : Nat) : Covered t vx vy len col row ↔ Covered s vx vy len col row := by
  simp only [Covered, hI, hmem]

/-- Settles O20: both draws cover the same pixels, so each is flipped twice. -/
theorem drawTwiceErases : Obligations.DrawTwiceErases := by
  intro x y n s t hin hexec hx hy
  obtain ⟨t', hexec', hpix, hhit, hmiss, _, _, _, hframe⟩ := drawFlipsCoveredPixels x y n s hin
  cases hexec'.symm.trans hexec
  have hI : t.I = s.I := hframe .I (by decide)
  have hcov : ∀ col row, Covered t (readV t x) (readV t y) n.toNat col row ↔
      Covered s (readV s x) (readV s y) n.toNat col row := by
    rw [hx, hy]
    exact Covered.congr hI (hframe .mem (by decide)) _ _ _
  obtain ⟨u, hexecu, hpixu, hhitu, hmissu, _⟩ := drawFlipsCoveredPixels x y n t (by rwa [hI])
  simp only [hcov] at hpixu hhitu hmissu
  refine ⟨u, hexecu, fun col row hcol hrow => ?restored,
    fun hclear => ⟨hmiss hclear, fun col row hc => ?drawnThenErased⟩, fun hempty => ?emptySprite⟩
  case restored =>
    obtain ⟨hflip, hkeep⟩ := hpix col row hcol hrow
    obtain ⟨hflipu, hkeepu⟩ := hpixu col row hcol hrow
    by_cases hc : Covered s (readV s x) (readV s y) n.toNat col row
    · rw [hflipu hc, hflip hc, Bool.not_not]
    · rw [hkeepu hc, hkeep hc]
  case drawnThenErased =>
    obtain ⟨hflip, _⟩ := hpix col row hc.col_lt hc.row_lt
    obtain ⟨hflipu, _⟩ := hpixu col row hc.col_lt hc.row_lt
    have hset : pixelAt t col row = true := by rw [hflip hc, hclear col row hc, Bool.not_false]
    have herased : pixelAt u col row = false := by rw [hflipu hc, hset, Bool.not_true]
    exact ⟨hset, herased, hhitu ⟨col, row, hc, hset⟩⟩
  case emptySprite =>
    exact ⟨fun col row hcol hrow => (hpix col row hcol hrow).2 (hempty col row),
      hmiss fun col row hc => absurd hc (hempty col row), hmissu fun col row hc => absurd hc (hempty col row)⟩

/-- Settles O21: the load is refused, so nothing but the error entry happens. -/
theorem drawPastMemoryRaises : Obligations.DrawPastMemoryRaises := by
  intro x y n s hn hpast
  exact ⟨_, exec_drw_of_past x y n s (by omega), raiseMemoryBounds_raised (.drw x y n) s⟩

end Sys2Proof.Machine
end

section
/-! The Core's step (30_encoding R90) and the errors of its fetch and decode. -/

namespace Sys2Proof.Machine

/-- The word at `pc`, high byte first (20_memory R61). -/
def wordAtPc (s : State) : Word := wordOfBytes (readByte s s.pc.toNat) (readByte s (s.pc.toNat + 1))

section

variable {s t : State}

theorem coreStep_of_halted (h : s.halted = true) : coreStep s = .next s := if_pos h

theorem coreStep_of_fetchable (hrun : s.halted = false) (hlt : s.pc.toNat < 0xFFF) (heven : s.pc.toNat % 2 = 0) :
    (∃ why, decode (wordAtPc s) = .rejected why ∧
      coreStep s = .next (raise .decodeError (wordAtPc s) 0x0000#16 s)) ∨
    ∃ i, decode (wordAtPc s) = .instr i ∧ coreStep s = exec i s := by
  rcases coreStep_cases s with ⟨hhalt, _⟩ | ⟨_, hpc, _⟩ | ⟨_, hpc, _⟩ | ⟨_, _, hpc, _⟩ | ⟨_, _, _, _, rfl, hword⟩
  · exact absurd hhalt (by simp [hrun])
  · omega
  · omega
  · omega
  · exact hword

/-- The Core's step from its answer: idle while halted, an error of fetch or decode, or an instruction. -/
theorem coreStep_inv (h : coreStep s = .next t) :
    (s.halted = true ∧ t = s) ∨
    (s.halted = false ∧ ∃ e op addr, t = raise e op addr s) ∨
    (s.halted = false ∧ s.pc.toNat < 0xFFF ∧ s.pc.toNat % 2 = 0 ∧
      ∃ i, decode (wordAtPc s) = .instr i ∧ exec i s = .next t) := by
  rcases coreStep_cases s with ⟨hhalt, hc⟩ | ⟨hrun, _, hc⟩ | ⟨hrun, _, hc⟩ | ⟨hrun, _, _, hc⟩ |
    ⟨hrun, hlt, heven, _, rfl, ⟨_, _, hc⟩ | ⟨i, hdecode, hc⟩⟩ <;> rw [hc] at h
  case inr.inr.inr.inr.inr => exact .inr (.inr ⟨hrun, hlt, heven, i, hdecode, h⟩)
  case inl =>
    cases h
    exact .inl ⟨hhalt, rfl⟩
  all_goals
    cases h
    exact .inr (.inl ⟨hrun, _, _, _, rfl⟩)

/-- What says whose turn it is has no part in the Core's step, so the performing state stands for the state. -/
theorem EventMoves.onlyChanges {e : Event} {s0 : State} (h : EventMoves e s s0) :
    OnlyChanges [.schedule, .agents] s s0 := by
  obtain ⟨l, a, rfl⟩ := h.keeps
  exact onlyChanges_turn s l a

end

/-- Settles O1: of the two outcomes at a fetchable `pc`, decoding leaves the instruction. -/
theorem stepRunsDecodedInstruction : Obligations.StepRunsDecodedInstruction := by
  intro s s0 i hmoves hrun hlt heven hdecode
  rw [hmoves.step_eq]
  obtain ⟨l, a, rfl⟩ := hmoves.keeps
  rcases coreStep_of_fetchable (s := { s with schedule := l, agents := a }) hrun hlt heven with
    ⟨_, hrejected, _⟩ | ⟨_, hinstr, hstep⟩
  · cases hrejected.symm.trans hdecode
  · cases hinstr.symm.trans hdecode
    exact hstep

/-- Settles O3: of the two outcomes at a fetchable `pc`, decoding leaves the error. -/
theorem undecodedWordRaises : Obligations.UndecodedWordRaises := by
  intro s s0 why hmoves hrun hlt heven hdecode
  rw [hmoves.step_eq]
  obtain ⟨l, a, rfl⟩ := hmoves.keeps
  rcases coreStep_of_fetchable (s := { s with schedule := l, agents := a }) hrun hlt heven with
    ⟨_, _, hstep⟩ | ⟨_, hinstr, _⟩
  · exact ⟨_, hstep, raise_raised ..⟩
  · cases hinstr.symm.trans hdecode

/-- Settles O2: bounds are tested before alignment, each in its own case of the step. -/
theorem badFetchAddressRaises : Obligations.BadFetchAddressRaises := by
  intro s s0 hmoves hrun
  rw [hmoves.step_eq]
  obtain ⟨l, a, rfl⟩ := hmoves.keeps
  have hnotHalted : ¬s.halted = true := by simp [hrun]
  rcases coreStep_cases { s with schedule := l, agents := a } with
    ⟨hhalt, _⟩ | ⟨_, hpc, hstep⟩ | ⟨_, hpc, hstep⟩ | ⟨_, hpc, hodd, hstep⟩ | ⟨_, hpc, heven, _⟩
  · exact absurd hhalt hnotHalted
  · refine ⟨fun _ => ⟨_, hstep, ?_⟩, fun hlt => absurd hlt (Nat.lt_asymm hpc)⟩
    rw [if_pos hpc]
    exact raise_raised ..
  · refine ⟨fun _ => ⟨_, hstep, ?_⟩, fun hlt => absurd hpc (Nat.ne_of_lt hlt)⟩
    rw [if_neg (Nat.not_lt_of_le (Nat.le_of_eq hpc))]
    exact raise_raised ..
  · exact ⟨fun hge => absurd hpc (Nat.not_lt_of_le hge), fun _ _ => ⟨_, hstep, raise_raised ..⟩⟩
  · exact ⟨fun hge => absurd hpc (Nat.not_lt_of_le hge), fun _ hodd => absurd (heven.symm.trans hodd) (by decide)⟩

/-! ## A word placed where the next step fetches (log entry 15) -/

theorem placeWord_pc (op : Word) (s : State) :
    (placeWord op s).pc.toNat < 0xFFF ∧ (placeWord op s).pc.toNat % 2 = 0 := by
  have hpc : (placeWord op s).pc = if fetchable s.pc then s.pc else 0x200#16 := rfl
  rw [hpc]
  split
  next h =>
    simp only [fetchable, Config.instrBytes, Config.memSize, Bool.and_eq_true, decide_eq_true_eq, Bool.not_eq_true',
      BitVec.getLsbD, Nat.testBit_zero, decide_eq_false_iff_not] at h
    omega
  next => decide

theorem wordAtPc_placeWord (op : Word) (s : State) : wordAtPc (placeWord op s) = op := by
  obtain ⟨hlt, _⟩ := placeWord_pc op s
  have hread : ∀ a, readByte (placeWord op s) a =
      if (placeWord op s).pc.toNat ≤ a ∧ a < (placeWord op s).pc.toNat + 2 then
        [hiByte op, loByte op].getD (a - (placeWord op s).pc.toNat) 0#8
      else readByte s a :=
    fun a => Memory.read_writeList [hiByte op, loByte op] s.mem _ a
      (show (placeWord op s).pc.toNat + 2 ≤ 4096 by omega)
  rw [wordAtPc, hread, hread, if_pos (by omega), if_pos (by omega), Nat.sub_self, Nat.add_sub_cancel_left]
  exact wordOfBytes_split op

theorem decodeTableWord_eq_some {nbits w : Nat} {i : Instr} (h : decodeTableWord nbits w = some i) :
    decode (tableWord nbits w) = .instr i := by
  simp only [decodeTableWord, decodeBytes, wordOfBytes_split] at h
  split at h
  next hdecode =>
    cases h
    exact congrArg Prod.fst hdecode
  next => cases h

/-- Settles O5: the placed bytes are read back and joined to the word. -/
theorem placedWordRunsNext : Obligations.PlacedWordRunsNext := by
  intro s w i htable
  obtain ⟨hlt, heven⟩ := placeWord_pc (tableWord 16 w) s
  have hword := wordAtPc_placeWord (tableWord 16 w) s
  have hdecode : decode (wordAtPc (placeWord (tableWord 16 w) s)) = .instr i := by
    rw [hword, decodeTableWord_eq_some htable]
  exact stepRunsDecodedInstruction _ _ i rfl rfl hlt heven hdecode

end Sys2Proof.Machine
end

section
/-! Everything an instruction can do, said once: the parts and registers it may write, the error it can raise, and how
it moves `pc` (10_state sections 1, 3 and 4; 60_exceptions section 1). -/

namespace Sys2Proof.Machine

/-- The parts a completing instruction may change: the rows of 10_state section 1 that name it as a writer. -/
def writtenParts (i : Instr) : List Part :=
  match i with
  | .sys _ => []
  | .jp _ | .jpV0 _ | .seByte _ _ | .sneByte _ _ | .seReg _ _ | .sneReg _ _ | .skp _ | .sknp _ => [.pc]
  | .ret => [.sp, .pc]
  | .call _ => [.sp, .stack, .pc]
  | .cls => [.fb, .drawReady, .pc]
  | .drw _ _ _ => [.V, .fb, .drawReady, .pc]
  | .ldByte _ _ | .addByte _ _ | .ldReg _ _ | .orReg _ _ | .andReg _ _ | .xorReg _ _ | .addReg _ _ | .subReg _ _
  | .shr _ _ | .subnReg _ _ | .shl _ _ | .ldVxDt _ | .ldVxMem _ => [.V, .pc]
  | .rnd _ _ | .ldVxK _ => [.V, .pc, .draws]
  | .ldDtVx _ => [.DT, .pc]
  | .ldStVx _ => [.ST, .pc]
  | .ldI _ | .addI _ | .ldF _ => [.I, .pc]
  | .ldB _ | .ldMemVx _ => [.mem, .pc]

/-- The V registers an instruction may write, VF as a flag included (10_state section 3). -/
def destinations (i : Instr) : List Reg :=
  match i with
  | .ldByte x _ | .addByte x _ | .ldReg x _ | .orReg x _ | .andReg x _ | .xorReg x _ | .rnd x _ | .ldVxDt x
  | .ldVxK x => [x]
  | .addReg x _ | .subReg x _ | .shr x _ | .subnReg x _ | .shl x _ => [x, 15]
  | .drw _ _ _ => [15]
  | .ldVxMem x => (List.finRange 16).filter (fun r => decide (r.val ≤ x.val))
  | .sys _ | .cls | .ret | .jp _ | .call _ | .seByte _ _ | .sneByte _ _ | .seReg _ _ | .sneReg _ _ | .ldI _ | .jpV0 _
  | .skp _ | .sknp _ | .ldDtVx _ | .ldStVx _ | .addI _ | .ldF _ | .ldB _ | .ldMemVx _ => []

/-- The one error an instruction can raise (60_exceptions R211). -/
def errorOf (i : Instr) : Option ErrorKind :=
  match i with
  | .sys _ => some .decodeError
  | .call _ => some .stackOverflow
  | .ret => some .stackUnderflow
  | .drw _ _ _ | .ldB _ | .ldMemVx _ | .ldVxMem _ => some .memoryBounds
  | .skp _ | .sknp _ => some .keyIndexBounds
  | .cls | .jp _ | .seByte _ _ | .sneByte _ _ | .seReg _ _ | .ldByte _ _ | .addByte _ _ | .ldReg _ _ | .orReg _ _
  | .andReg _ _ | .xorReg _ _ | .addReg _ _ | .subReg _ _ | .shr _ _ | .subnReg _ _ | .shl _ _ | .sneReg _ _ | .ldI _
  | .jpV0 _ | .rnd _ _ | .ldVxDt _ | .ldVxK _ | .ldDtVx _ | .ldStVx _ | .addI _ | .ldF _ => none

/-- What holds of every completing instruction. -/
structure Completes (i : Instr) (s t : State) : Prop where
  frame : OnlyChanges (writtenParts i) s t
  registers : OtherRegisters (destinations i) s t
  nextPc : NextPc i s t

/-- What holds of every raising instruction: its own error and word, and nothing else (60_exceptions R215). -/
def RaisesOwnError (i : Instr) (s t : State) : Prop :=
  ∃ e addr, errorOf i = some e ∧ t = raise e (encode i) addr s

theorem OnlyChanges.otherRegisters {ps : List Part} {s t : State} (h : OnlyChanges ps s t) (hV : Part.V ∉ ps)
    (regs : List Reg) : OtherRegisters regs s t := fun r _ => h.readV_eq hV r

/-! ## The instructions whose meaning branches -/

theorem exec_call_cases (nnn : Addr12) (s : State) :
    ∃ t, exec (.call nnn) s = .next t ∧ (RaisesOwnError (.call nnn) s t ∨ Completes (.call nnn) s t) := by
  by_cases hsp : s.sp.val = 47
  · exact ⟨_, exec_call_of_full nnn s hsp, .inl ⟨_, _, rfl, rfl⟩⟩
  · have hlt := sp_lt s
    obtain ⟨t, hexec, _, _, hpc, hframe⟩ := callPushesReturnAddress nnn s (by omega)
    exact ⟨t, hexec, .inr ⟨hframe, hframe.otherRegisters (by decide) _, hpc⟩⟩

theorem exec_ret_cases (s : State) :
    ∃ t, exec .ret s = .next t ∧ (RaisesOwnError .ret s t ∨ Completes .ret s t) := by
  by_cases hsp : s.sp.val = 0
  · exact ⟨_, exec_ret_of_empty s hsp, .inl ⟨_, _, rfl, rfl⟩⟩
  · obtain ⟨t, hexec, hpc, _, hframe⟩ := returnPopsIntoPc s (Nat.pos_of_ne_zero hsp)
    exact ⟨t, hexec, .inr ⟨hframe, hframe.otherRegisters (by decide) _, hpc⟩⟩

section

variable (x y : Reg) (n : Nibble) (s : State)

theorem exec_skp_cases :
    ∃ t, exec (.skp x) s = .next t ∧ (RaisesOwnError (.skp x) s t ∨ Completes (.skp x) s t) := by
  rcases Nat.lt_or_ge 15 (readV s x).toNat with hgt | hle
  · exact ⟨_, exec_skp_of_no_key x s hgt, .inl ⟨_, _, rfl, rfl⟩⟩
  · obtain ⟨⟨t, hexec, hpc, hframe⟩, _⟩ := keySkipsSampleTheKey x s hle
    exact ⟨t, hexec, .inr ⟨hframe, hframe.otherRegisters (by decide) _, hpc⟩⟩

theorem exec_sknp_cases :
    ∃ t, exec (.sknp x) s = .next t ∧ (RaisesOwnError (.sknp x) s t ∨ Completes (.sknp x) s t) := by
  rcases Nat.lt_or_ge 15 (readV s x).toNat with hgt | hle
  · exact ⟨_, exec_sknp_of_no_key x s hgt, .inl ⟨_, _, rfl, rfl⟩⟩
  · obtain ⟨_, t, hexec, hpc, hframe⟩ := keySkipsSampleTheKey x s hle
    refine ⟨t, hexec, .inr ⟨hframe, hframe.otherRegisters (by decide) _, ?_⟩⟩
    rw [NextPc, hpc]
    cases keyDown s (readV s x).toNat <;> rfl

theorem exec_drw_cases :
    ∃ t, exec (.drw x y n) s = .next t ∧ (RaisesOwnError (.drw x y n) s t ∨ Completes (.drw x y n) s t) := by
  by_cases hin : n.toNat = 0 ∨ s.I.toNat + n.toNat ≤ 0x1000
  · obtain ⟨t, hexec, _, _, _, _, hpc, hregs, hframe⟩ := drawFlipsCoveredPixels x y n s hin
    exact ⟨t, hexec, .inr ⟨hframe, hregs, hpc⟩⟩
  · exact ⟨_, exec_drw_of_past x y n s hin, .inl ⟨_, _, rfl, rfl⟩⟩

theorem exec_ldVxK_cases : ∃ t, exec (.ldVxK x) s = .next t ∧ Completes (.ldVxK x) s t := by
  rcases no_key_or_some_key s with hnone | ⟨j, hj, hdown⟩
  · exact ⟨s, waitForKeyHoldsWithoutKey x s hnone, OnlyChanges.refl _ s, fun _ _ => rfl, fun _ => rfl,
      fun ⟨j, hj, hdown⟩ => absurd hdown (by simp [hnone j hj])⟩
  · obtain ⟨t, hexec, _, _, _, hpc, hregs, hframe⟩ := waitForKeyTakesAPressedKey x s j hj hdown
    exact ⟨t, hexec, hframe, hregs, fun hnone => absurd hdown (by simp [hnone j hj]), fun _ => hpc⟩

theorem exec_ldB_cases :
    ∃ t, exec (.ldB x) s = .next t ∧ (RaisesOwnError (.ldB x) s t ∨ Completes (.ldB x) s t) := by
  rcases Nat.lt_or_ge 0xFFF (s.I.toNat + 2) with hpast | hin
  · exact ⟨_, exec_ldB_of_past x s hpast, .inl ⟨_, _, rfl, rfl⟩⟩
  · obtain ⟨_, hstore, _⟩ := bcdStoresThreeDigits x s
    obtain ⟨t, hexec, _, _, _, _, hpc, hframe⟩ := hstore hin
    exact ⟨t, hexec, .inr ⟨hframe, hframe.otherRegisters (by decide) _, hpc⟩⟩

theorem exec_ldMemVx_cases :
    ∃ t, exec (.ldMemVx x) s = .next t ∧ (RaisesOwnError (.ldMemVx x) s t ∨ Completes (.ldMemVx x) s t) := by
  rcases Nat.lt_or_ge 0xFFF (s.I.toNat + x.val) with hpast | hin
  · exact ⟨_, exec_ldMemVx_of_past x s hpast, .inl ⟨_, _, rfl, rfl⟩⟩
  · obtain ⟨_, hstore, _⟩ := registerDumpStoresRun x s
    obtain ⟨t, hexec, _, _, hpc, hframe⟩ := hstore hin
    exact ⟨t, hexec, .inr ⟨hframe, hframe.otherRegisters (by decide) _, hpc⟩⟩

theorem mem_destinations_ldVxMem (r : Reg) : r ∈ destinations (.ldVxMem x) ↔ r.val ≤ x.val := by
  simp [destinations]

theorem exec_ldVxMem_cases :
    ∃ t, exec (.ldVxMem x) s = .next t ∧ (RaisesOwnError (.ldVxMem x) s t ∨ Completes (.ldVxMem x) s t) := by
  rcases Nat.lt_or_ge 0xFFF (s.I.toNat + x.val) with hpast | hin
  · exact ⟨_, exec_ldVxMem_of_past x s hpast, .inl ⟨_, _, rfl, rfl⟩⟩
  · obtain ⟨_, hload, _⟩ := registerLoadReadsRun x s
    obtain ⟨t, hexec, _, habove, hpc, hframe⟩ := hload hin
    have hregs : OtherRegisters (destinations (.ldVxMem x)) s t := fun r hr =>
      habove r (Nat.lt_of_not_le (mt (mem_destinations_ldVxMem x r).mpr hr))
    exact ⟨t, hexec, .inr ⟨hframe, hregs, hpc⟩⟩

end

/-! ## All of them -/

section

variable {i : Instr} {s : State}

theorem exec_cases_of_frame {ps : List Part} {t : State} (hexec : exec i s = .next t) (hframe : OnlyChanges ps s t)
    (hV : Part.V ∉ ps) (hparts : writtenParts i = ps) (hpc : NextPc i s t) :
    ∃ t, exec i s = .next t ∧ (RaisesOwnError i s t ∨ Completes i s t) :=
  ⟨t, hexec, .inr ⟨hparts ▸ hframe, hframe.otherRegisters hV _, hpc⟩⟩

theorem exec_cases_of_writeV {x : Reg} {b : Byte} (hexec : exec i s = .next (advance (writeV x b s)))
    (hparts : writtenParts i = [.V, .pc]) (hdest : destinations i = [x])
    (hpc : NextPc i s (advance (writeV x b s))) :
    ∃ t, exec i s = .next t ∧ (RaisesOwnError i s t ∨ Completes i s t) := by
  obtain ⟨_, _, hregs, hframe⟩ := advance_writeV_spec s x b
  exact ⟨_, hexec, .inr ⟨hparts ▸ hframe, hdest ▸ hregs, hpc⟩⟩

theorem exec_cases_of_writeFlagThenResult {c : Bool} {x : Reg} {b : Byte}
    (hexec : exec i s = .next (advance (writeFlagThenResult c x b s))) (hparts : writtenParts i = [.V, .pc])
    (hdest : destinations i = [x, 15]) (hpc : NextPc i s (advance (writeFlagThenResult c x b s))) :
    ∃ t, exec i s = .next t ∧ (RaisesOwnError i s t ∨ Completes i s t) := by
  obtain ⟨_, _, _, hregs, hframe⟩ := advance_writeFlagThenResult_spec s c x b
  exact ⟨_, hexec, .inr ⟨hparts ▸ hframe, hdest ▸ hregs, hpc⟩⟩

end

/-- Every instruction answers a next state: it raises its own error, or it completes. -/
theorem exec_cases (i : Instr) (s : State) :
    ∃ t, exec i s = .next t ∧ (RaisesOwnError i s t ∨ Completes i s t) := by
  cases i with
  | sys nnn => exact ⟨_, exec_sys nnn s, .inl ⟨_, _, rfl, rfl⟩⟩
  | call nnn => exact exec_call_cases nnn s
  | ret => exact exec_ret_cases s
  | skp x => exact exec_skp_cases x s
  | sknp x => exact exec_sknp_cases x s
  | drw x y n => exact exec_drw_cases x y n s
  | ldB x => exact exec_ldB_cases x s
  | ldMemVx x => exact exec_ldMemVx_cases x s
  | ldVxMem x => exact exec_ldVxMem_cases x s
  | ldVxK x =>
    obtain ⟨t, hexec, hdone⟩ := exec_ldVxK_cases x s
    exact ⟨t, hexec, .inr hdone⟩
  | rnd x kk =>
    obtain ⟨t, hexec, _, _, hpc, hregs, hframe⟩ := randomMasksTheDraw x kk s
    exact ⟨t, hexec, .inr ⟨hframe, hregs, hpc⟩⟩
  | cls => exact exec_cases_of_frame (exec_cls s) (onlyChanges_advance_showPixels _ s) (by decide) rfl rfl
  | jp nnn =>
    exact exec_cases_of_frame (exec_jp nnn s) (onlyChanges_jumpTo _ s) (by decide) rfl (addrOperand_toNat nnn)
  | jpV0 nnn =>
    exact exec_cases_of_frame (exec_jpV0 nnn s) (onlyChanges_jumpTo _ s) (by decide) rfl (indexedTarget_toNat s nnn)
  | seByte x kk =>
    exact exec_cases_of_frame (exec_seByte x kk s) (onlyChanges_skipIf _ s) (by decide) rfl (skipIf_beq_pc _ kk s)
  | seReg x y =>
    exact exec_cases_of_frame (exec_seReg x y s) (onlyChanges_skipIf _ s) (by decide) rfl (skipIf_beq_pc _ _ s)
  | sneByte x kk =>
    refine exec_cases_of_frame (exec_sneByte x kk s) (onlyChanges_skipIf _ s) (by decide) rfl ?_
    rw [NextPc, skipIf_bne_pc, ite_not]
  | sneReg x y =>
    refine exec_cases_of_frame (exec_sneReg x y s) (onlyChanges_skipIf _ s) (by decide) rfl ?_
    rw [NextPc, skipIf_bne_pc, ite_not]
  | ldDtVx x =>
    exact exec_cases_of_frame (exec_ldDtVx x s) ((onlyChanges_writeDT s _).trans (onlyChanges_advance _))
      (by decide) rfl rfl
  | ldStVx x =>
    exact exec_cases_of_frame (exec_ldStVx x s) ((onlyChanges_writeST s _).trans (onlyChanges_advance _))
      (by decide) rfl rfl
  | ldI nnn => exact exec_cases_of_frame (exec_ldI nnn s) (onlyChanges_advance_writeI _ s) (by decide) rfl rfl
  | addI x => exact exec_cases_of_frame (exec_addI x s) (onlyChanges_advance_writeI _ s) (by decide) rfl rfl
  | ldF x => exact exec_cases_of_frame (exec_ldF x s) (onlyChanges_advance_writeI _ s) (by decide) rfl rfl
  | ldByte | addByte | ldReg | orReg | andReg | xorReg | ldVxDt => exact exec_cases_of_writeV rfl rfl rfl rfl
  | addReg | subReg | shr | subnReg | shl => exact exec_cases_of_writeFlagThenResult rfl rfl rfl rfl

section

variable {i : Instr} {s t : State}

/-- The same from the instruction's answer. -/
theorem exec_inv (h : exec i s = .next t) : RaisesOwnError i s t ∨ Completes i s t := by
  obtain ⟨t', hexec, hcases⟩ := exec_cases i s
  cases hexec.symm.trans h
  exact hcases

/-! ## What the parts written leave out -/

/-- The parts no instruction writes: the error registers, which the error entry alone writes, the keypad, and the
model's own font, schedule and agents. -/
def unwrittenParts : List Part := errorParts ++ [.key, .font, .schedule, .agents]

theorem unwrittenParts_not_written {p : Part} (hp : p ∈ unwrittenParts) (i : Instr) : p ∉ writtenParts i := by
  have hdisjoint : ∀ q ∈ writtenParts i, q ∉ unwrittenParts := by
    cases i <;> simp [writtenParts, unwrittenParts, errorParts]
  exact fun hw => hdisjoint p hw hp

theorem Completes.sameIn (h : Completes i s t) {p : Part} (hp : p ∈ unwrittenParts) : SameIn p s t :=
  h.frame p (unwrittenParts_not_written hp i)

theorem Completes.halted_eq (h : Completes i s t) : t.halted = s.halted := h.sameIn (p := .halted) (by decide)

theorem RaisesOwnError.frame (h : RaisesOwnError i s t) : OnlyChanges errorParts s t := by
  obtain ⟨e, addr, _, rfl⟩ := h
  exact onlyChanges_raise s e _ addr

/-- A running core is halted by the error entry alone. -/
theorem exec_raises_of_halts (hrun : s.halted = false) (h : exec i s = .next t) (hhalt : t.halted = true) :
    RaisesOwnError i s t := by
  rcases exec_inv h with hraise | hdone
  · exact hraise
  · exact absurd (hdone.halted_eq.symm.trans hhalt) (by simp [hrun])

theorem exec_completes_of_runs (h : exec i s = .next t) (hrun : t.halted = false) : Completes i s t := by
  rcases exec_inv h with ⟨_, _, _, rfl⟩ | hdone
  · cases hrun
  · exact hdone

/-- A part that is no error register changes only where the instruction is one of its writers. -/
theorem exec_writer {p : Part} (h : exec i s = .next t) (hp : p ∉ errorParts) (hne : ¬SameIn p s t) :
    p ∈ writtenParts i := by
  rcases exec_inv h with hraise | hdone
  · exact absurd (hraise.frame p hp) hne
  · exact by_contra fun hw => hne (hdone.frame p hw)

theorem exec_register_writer {r : Reg} (h : exec i s = .next t) (hne : readV t r ≠ readV s r) :
    r ∈ destinations i := by
  rcases exec_inv h with hraise | hdone
  · exact absurd (hraise.frame.readV_eq (by decide) r) hne
  · exact by_contra fun hr => hne (hdone.registers r hr)

theorem exec_error_writer {p : Part} (h : exec i s = .next t) (hp : p ∈ errorParts) (hne : ¬SameIn p s t) :
    ∃ e, errorOf i = some e := by
  rcases exec_inv h with ⟨e, _, he, _⟩ | hdone
  · exact ⟨e, he⟩
  · exact absurd (hdone.sameIn (List.mem_append_left _ hp)) hne

end

end Sys2Proof.Machine
end

section
/-! Rules that hold of every instruction: its writers, its errors, its next `pc`, and what it cannot see. -/

namespace Sys2Proof.Machine

/-! ## Precision and the errors (60_exceptions section 1) -/

/-- Settles O57: a running core is halted by the error entry alone. -/
theorem failingInstructionIsPrecise : Obligations.FailingInstructionIsPrecise := by
  intro i s t hrun hexec hhalt
  have hraise := exec_raises_of_halts hrun hexec hhalt
  have hframe := hraise.frame
  obtain ⟨_, _, _, rfl⟩ := hraise
  exact ⟨rfl, rfl, hframe⟩

/-- Settles O58: each instruction has at most one error. -/
theorem errorsOfEachInstruction : Obligations.ErrorsOfEachInstruction := by
  intro i s t hrun hexec hhalt
  obtain ⟨e, _, herror, rfl⟩ := exec_raises_of_halts hrun hexec hhalt
  cases i with
  | sys nnn => cases herror; exact .inl ⟨rfl, nnn, rfl⟩
  | call nnn => cases herror; exact .inr (.inl ⟨rfl, nnn, rfl⟩)
  | ret => cases herror; exact .inr (.inr (.inl ⟨rfl, rfl⟩))
  | drw x y n => cases herror; exact .inr (.inr (.inr (.inl ⟨rfl, x, y, n, .inl rfl⟩)))
  | ldB x => cases herror; exact .inr (.inr (.inr (.inl ⟨rfl, x, 0, 0, .inr (.inl rfl)⟩)))
  | ldMemVx x => cases herror; exact .inr (.inr (.inr (.inl ⟨rfl, x, 0, 0, .inr (.inr (.inl rfl))⟩)))
  | ldVxMem x => cases herror; exact .inr (.inr (.inr (.inl ⟨rfl, x, 0, 0, .inr (.inr (.inr rfl))⟩)))
  | skp x => cases herror; exact .inr (.inr (.inr (.inr ⟨rfl, x, .inl rfl⟩)))
  | sknp x => cases herror; exact .inr (.inr (.inr (.inr ⟨rfl, x, .inr rfl⟩)))
  | _ => cases herror

/-- Settles O52: a completing instruction moves `pc` as its row says; whatever raises leaves it. -/
theorem nextPcOfEveryInstruction : Obligations.NextPcOfEveryInstruction := by
  constructor
  · intro i s t _ hexec hrun
    exact (exec_completes_of_runs hexec hrun).nextPc
  · intro s s0 t hcore hrun hstep hhalt
    have hpc0 : s0.pc = s.pc := hcore.onlyChanges .pc (by decide)
    have hhalted0 : s0.halted = s.halted := hcore.onlyChanges .halted (by decide)
    have hrun0 : s0.halted = false := hhalted0.trans hrun
    rw [hcore.step_eq] at hstep
    rw [← hpc0]
    rcases coreStep_inv hstep with ⟨_, rfl⟩ | ⟨_, _, _, _, rfl⟩ | ⟨_, _, _, i, _, hexec⟩
    · rfl
    · rfl
    · exact (exec_raises_of_halts hrun0 hexec hhalt).frame .pc (by decide)

/-! ## The writers of each part (10_state section 1) -/

section

variable {i : Instr}

theorem memory_writer (h : Part.mem ∈ writtenParts i) : ∃ x, i = .ldB x ∨ i = .ldMemVx x := by
  cases i with
  | ldB x => exact ⟨x, .inl rfl⟩
  | ldMemVx x => exact ⟨x, .inr rfl⟩
  | _ => simp [writtenParts] at h

theorem index_writer (h : Part.I ∈ writtenParts i) : ∃ x nnn, i = .ldI nnn ∨ i = .addI x ∨ i = .ldF x := by
  cases i with
  | ldI nnn => exact ⟨0, nnn, .inl rfl⟩
  | addI x => exact ⟨x, 0, .inr (.inl rfl)⟩
  | ldF x => exact ⟨x, 0, .inr (.inr rfl)⟩
  | _ => simp [writtenParts] at h

theorem stackPointer_writer (h : Part.sp ∈ writtenParts i) : ∃ nnn, i = .call nnn ∨ i = .ret := by
  cases i with
  | call nnn => exact ⟨nnn, .inl rfl⟩
  | ret => exact ⟨0, .inr rfl⟩
  | _ => simp [writtenParts] at h

theorem stack_writer (h : Part.stack ∈ writtenParts i) : ∃ nnn, i = .call nnn := by
  cases i with
  | call nnn => exact ⟨nnn, rfl⟩
  | _ => simp [writtenParts] at h

theorem delayTimer_writer (h : Part.DT ∈ writtenParts i) : ∃ x, i = .ldDtVx x := by
  cases i with
  | ldDtVx x => exact ⟨x, rfl⟩
  | _ => simp [writtenParts] at h

theorem soundTimer_writer (h : Part.ST ∈ writtenParts i) : ∃ x, i = .ldStVx x := by
  cases i with
  | ldStVx x => exact ⟨x, rfl⟩
  | _ => simp [writtenParts] at h

theorem display_writer (h : Part.fb ∈ writtenParts i ∨ Part.drawReady ∈ writtenParts i) :
    ∃ x y n, i = .cls ∨ i = .drw x y n := by
  cases i with
  | cls => exact ⟨0, 0, 0, .inl rfl⟩
  | drw x y n => exact ⟨x, y, n, .inr rfl⟩
  | _ => simp [writtenParts] at h

theorem draws_writer (h : Part.draws ∈ writtenParts i) : ∃ x kk, i = .rnd x kk ∨ i = .ldVxK x := by
  cases i with
  | rnd x kk => exact ⟨x, kk, .inl rfl⟩
  | ldVxK x => exact ⟨x, 0, .inr rfl⟩
  | _ => simp [writtenParts] at h

/-- The writers of a V register, one group per way of naming it. -/
theorem register_writer {r : Reg} (h : r ∈ destinations i) :
    (∃ kk, i = .ldByte r kk ∨ i = .addByte r kk ∨ i = .rnd r kk) ∨
    (∃ y, i = .ldReg r y ∨ i = .orReg r y ∨ i = .andReg r y ∨ i = .xorReg r y) ∨
    (∃ x y, (r = x ∨ r = 15) ∧
      (i = .addReg x y ∨ i = .subReg x y ∨ i = .shr x y ∨ i = .subnReg x y ∨ i = .shl x y)) ∨
    (r = 15 ∧ ∃ x y n, i = .drw x y n) ∨ i = .ldVxDt r ∨ i = .ldVxK r ∨
    (∃ x : Reg, r.val ≤ x.val ∧ i = .ldVxMem x) := by
  cases i with
  | ldVxMem x => simpa using (mem_destinations_ldVxMem x r).mp h
  | _ => simp_all [destinations]

theorem error_writer {e : ErrorKind} (h : errorOf i = some e) :
    ∃ x y n nnn, i = .sys nnn ∨ i = .call nnn ∨ i = .ret ∨ i = .drw x y n ∨ i = .ldB x ∨ i = .ldMemVx x ∨
      i = .ldVxMem x ∨ i = .skp x ∨ i = .sknp x := by
  cases i <;> simp_all [errorOf]

end

/-- Settles O55: each clause asks for the writers of one part. -/
theorem onlyTheListedWritersWrite : Obligations.OnlyTheListedWritersWrite := by
  intro i s t hexec
  have hkept : ∀ p ∈ [Part.key, .font, .schedule, .agents], SameIn p s t := by
    intro p hp
    rcases exec_inv hexec with hraise | hdone
    · exact hraise.frame p (by revert p; decide)
    · exact hdone.sameIn (List.mem_append_right _ hp)
  refine ⟨hkept .key (by decide), hkept .font (by decide), hkept .schedule (by decide), hkept .agents (by decide),
    fun ⟨a, ha⟩ => ?mem, fun hne => ?I, fun hne => ?sp, fun hne => ?stack, fun hne => ?DT, fun hne => ?ST,
    fun hne => ?display, fun hne => ?draws, fun r hne => register_writer (exec_register_writer hexec hne),
    fun hne => ?error⟩
  case mem => exact memory_writer (exec_writer hexec (by decide) fun hsame => ha (hsame a))
  case I => exact index_writer (exec_writer hexec (by decide) hne)
  case sp => exact stackPointer_writer (exec_writer hexec (by decide) hne)
  case stack =>
    refine stack_writer (exec_writer hexec (by decide) fun hsame => hne ?_)
    exact Vector.ext fun k hk => hsame ⟨k, hk⟩
  case DT => exact delayTimer_writer (exec_writer hexec (by decide) hne)
  case ST => exact soundTimer_writer (exec_writer hexec (by decide) hne)
  case display =>
    rcases hne with hne | hne
    · exact display_writer (.inl (exec_writer hexec (by decide) hne))
    · exact display_writer (.inr (exec_writer hexec (by decide) hne))
  case draws => exact draws_writer (exec_writer hexec (by decide) hne)
  case error =>
    have hwriter : ∃ e, errorOf i = some e := by
      rcases hne with hne | hne | hne | hne | hne
      · exact exec_error_writer (p := .halted) hexec (by decide) hne
      · exact exec_error_writer (p := .errCode) hexec (by decide) hne
      · exact exec_error_writer (p := .errOpcode) hexec (by decide) hne
      · exact exec_error_writer (p := .errPc) hexec (by decide) hne
      · exact exec_error_writer (p := .errAddr) hexec (by decide) hne
    obtain ⟨_, herror⟩ := hwriter
    exact error_writer herror

/-- Settles O56: the writers of V registers, asked about VF. -/
theorem flagRegisterHasSixSideWriters : Obligations.FlagRegisterHasSixSideWriters := by
  intro i s t hexec hne
  rcases register_writer (exec_register_writer hexec hne) with
    ⟨kk, h⟩ | ⟨y, h⟩ | ⟨x, y, _, h⟩ | ⟨_, x, y, n, h⟩ | h | h | ⟨x, hx, h⟩
  · exact .inr ⟨0, kk, by tauto⟩
  · exact .inr ⟨y, 0, by tauto⟩
  · exact .inl ⟨x, y, 0, by tauto⟩
  · exact .inl ⟨x, y, n, by tauto⟩
  · exact .inr ⟨0, 0, by tauto⟩
  · exact .inr ⟨0, 0, by tauto⟩
  · have hx15 : x = 15 := Fin.ext (Nat.le_antisymm (Nat.le_of_lt_succ x.isLt) hx)
    subst hx15
    exact .inr ⟨0, 0, by tauto⟩

/-! ## What no instruction reads (10_state sections 5 and 7) -/

/-- A state with another draw-ready flag and another sound timer. -/
def unseen (b : Bool) (v : Byte) (s : State) : State := { s with drawReady := b, ST := v }

theorem onlyChanges_unseen (b : Bool) (v : Byte) (s : State) : OnlyChanges [.drawReady, .ST] s (unseen b v s) := by
  intro p hp
  cases p with
  | drawReady | ST => exact absurd (by decide) hp
  | mem | V | stack => exact fun _ => rfl
  | _ => rfl

theorem writeRun_unseen (b : Bool) (v : Byte) (bytes : List Byte) (k : Nat) (s : State) :
    writeRun k bytes (unseen b v s) = unseen b v (writeRun k bytes s) := by
  induction bytes generalizing k s with
  | nil => rfl
  | cons a rest ih =>
    by_cases hk : k < Config.numV
    · simp only [writeRun, dif_pos hk]
      exact ih (k + 1) (writeV ⟨k, hk⟩ a s)
    · simp only [writeRun, dif_neg hk]

/-- The instruction's answer from the two states differs at most in the two parts. -/
def BlindTo (i : Instr) (b : Bool) (v : Byte) (s : State) : Prop :=
  ∃ t b' v', exec i s = .next t ∧ exec i (unseen b v s) = .next (unseen b' v' t)

section

variable (x y : Reg) (n : Nibble) (nnn : Addr12) (b : Bool) (v : Byte) (s : State)

theorem call_blindTo : BlindTo (.call nnn) b v s := by
  by_cases hsp : s.sp.val = 47
  · exact ⟨_, b, v, exec_call_of_full nnn s hsp, exec_call_of_full nnn (unseen b v s) hsp⟩
  · have hlt := sp_lt s
    have hroom : s.sp.val + 1 < 48 := by omega
    exact ⟨_, b, v, exec_call_of_room nnn s hroom, exec_call_of_room nnn (unseen b v s) hroom⟩

theorem ret_blindTo : BlindTo .ret b v s := by
  by_cases hsp : s.sp.val = 0
  · exact ⟨_, b, v, exec_ret_of_empty s hsp, exec_ret_of_empty (unseen b v s) hsp⟩
  · obtain ⟨_, hexec⟩ := exec_ret_of_pos s hsp
    obtain ⟨_, hexec'⟩ := exec_ret_of_pos (unseen b v s) hsp
    exact ⟨_, b, v, hexec, hexec'⟩

theorem skp_blindTo : BlindTo (.skp x) b v s := by
  rcases Nat.lt_or_ge 15 (readV s x).toNat with hgt | hle
  · exact ⟨_, b, v, exec_skp_of_no_key x s hgt, exec_skp_of_no_key x (unseen b v s) hgt⟩
  · exact ⟨_, b, v, exec_skp_of_key x s hle, exec_skp_of_key x (unseen b v s) hle⟩

theorem sknp_blindTo : BlindTo (.sknp x) b v s := by
  rcases Nat.lt_or_ge 15 (readV s x).toNat with hgt | hle
  · exact ⟨_, b, v, exec_sknp_of_no_key x s hgt, exec_sknp_of_no_key x (unseen b v s) hgt⟩
  · exact ⟨_, b, v, exec_sknp_of_key x s hle, exec_sknp_of_key x (unseen b v s) hle⟩

theorem ldVxK_blindTo : BlindTo (.ldVxK x) b v s := by
  rcases no_key_or_some_key s with hnone | hsome
  · exact ⟨s, b, v, exec_ldVxK_of_none x s hnone, exec_ldVxK_of_none x (unseen b v s) hnone⟩
  · obtain ⟨k, _, _, hpick, hexec⟩ := exec_ldVxK_of_some x s hsome
    obtain ⟨k', _, _, hpick', hexec'⟩ := exec_ldVxK_of_some x (unseen b v s) hsome
    cases hpick.symm.trans hpick'
    exact ⟨_, b, v, hexec, hexec'⟩

theorem drw_blindTo : BlindTo (.drw x y n) b v s := by
  by_cases hin : n.toNat = 0 ∨ s.I.toNat + n.toNat ≤ 0x1000
  · exact ⟨_, true, v, exec_drw_of_inRange x y n s hin, exec_drw_of_inRange x y n (unseen b v s) hin⟩
  · exact ⟨_, b, v, exec_drw_of_past x y n s hin, exec_drw_of_past x y n (unseen b v s) hin⟩

theorem ldB_blindTo : BlindTo (.ldB x) b v s := by
  rcases Nat.lt_or_ge 0xFFF (s.I.toNat + 2) with hpast | hin
  · exact ⟨_, b, v, exec_ldB_of_past x s hpast, exec_ldB_of_past x (unseen b v s) hpast⟩
  · exact ⟨_, b, v, exec_ldB_of_inRange x s hin, exec_ldB_of_inRange x (unseen b v s) hin⟩

theorem ldMemVx_blindTo : BlindTo (.ldMemVx x) b v s := by
  rcases Nat.lt_or_ge 0xFFF (s.I.toNat + x.val) with hpast | hin
  · exact ⟨_, b, v, exec_ldMemVx_of_past x s hpast, exec_ldMemVx_of_past x (unseen b v s) hpast⟩
  · exact ⟨_, b, v, exec_ldMemVx_of_inRange x s hin, exec_ldMemVx_of_inRange x (unseen b v s) hin⟩

theorem ldVxMem_blindTo : BlindTo (.ldVxMem x) b v s := by
  rcases Nat.lt_or_ge 0xFFF (s.I.toNat + x.val) with hpast | hin
  · exact ⟨_, b, v, exec_ldVxMem_of_past x s hpast, exec_ldVxMem_of_past x (unseen b v s) hpast⟩
  · refine ⟨_, b, v, exec_ldVxMem_of_inRange x s hin, (exec_ldVxMem_of_inRange x (unseen b v s) hin).trans ?_⟩
    exact congrArg (fun u => Host.Outcome.next (advance u)) (writeRun_unseen b v _ 0 s)

theorem exec_blindTo (i : Instr) : BlindTo i b v s := by
  cases i with
  | call nnn => exact call_blindTo nnn b v s
  | ret => exact ret_blindTo b v s
  | skp x => exact skp_blindTo x b v s
  | sknp x => exact sknp_blindTo x b v s
  | ldVxK x => exact ldVxK_blindTo x b v s
  | drw x y n => exact drw_blindTo x y n b v s
  | ldB x => exact ldB_blindTo x b v s
  | ldMemVx x => exact ldMemVx_blindTo x b v s
  | ldVxMem x => exact ldVxMem_blindTo x b v s
  | cls => exact ⟨_, true, v, rfl, rfl⟩
  | ldStVx x => exact ⟨_, b, readV s x, rfl, rfl⟩
  | _ => exact ⟨_, b, v, rfl, rfl⟩

end

/-- Settles O60: from both states the instruction takes the same branch. -/
theorem noInstructionSeesDrawReadyOrSoundTimer : Obligations.NoInstructionSeesDrawReadyOrSoundTimer := by
  intro i s t b v hexec
  obtain ⟨t', b', v', hexec', hblind⟩ := exec_blindTo b v s i
  cases hexec'.symm.trans hexec
  exact ⟨unseen b' v' t, hblind, onlyChanges_unseen b' v' t⟩

end Sys2Proof.Machine
end

section
/-! The events of the other agents, runs of events, and `Reset` (41_display, 43_keys_timers, 60_exceptions,
70_reset_and_hazards). -/

namespace Sys2Proof.Machine

/-! ## What every event keeps -/

/-- The Core's step answers a next state, with the font and what says whose turn it is as before. -/
theorem coreStep_keeps (s : State) : ∃ t, coreStep s = .next t ∧
    ∀ p ∈ [Part.font, .schedule, .agents], SameIn p s t := by
  have hraise : ∀ e op addr, ∀ p ∈ [Part.font, .schedule, .agents], SameIn p s (raise e op addr s) :=
    fun e op addr p hp => onlyChanges_raise s e op addr p (by revert p; decide)
  rcases coreStep_cases s with ⟨_, hc⟩ | ⟨_, _, hc⟩ | ⟨_, _, hc⟩ | ⟨_, _, _, hc⟩ |
    ⟨_, _, _, _, _, ⟨_, _, hc⟩ | ⟨i, _, hc⟩⟩
  case inl => exact ⟨s, hc, fun p _ => SameIn.refl p s⟩
  case inr.inr.inr.inr.inr =>
    obtain ⟨t, hexec, hraised | hdone⟩ := exec_cases i s
    · exact ⟨t, hc.trans hexec, fun p hp => hraised.frame p (by revert p; decide)⟩
    · exact ⟨t, hc.trans hexec, fun p hp => hdone.sameIn (by revert p; decide)⟩
  all_goals exact ⟨_, hc, hraise _ _ _⟩

theorem resetWith_keeps (rom : List Byte) (s : State) : (resetWith rom s).font = s.font ∧
    (resetWith rom s).schedule = s.schedule ∧ (resetWith rom s).agents = s.agents := by
  unfold resetWith
  split <;> exact ⟨rfl, rfl, rfl⟩

theorem timerTick_of_running {s : State} (h : s.halted = false) :
    timerTick s = { s with DT := countDown s.DT, ST := countDown s.ST } := if_neg (by simp [h])

theorem timerTick_of_halted {s : State} (h : s.halted = true) : timerTick s = s := if_pos h

theorem onlyChanges_timerTick (s : State) : OnlyChanges [.DT, .ST] s (timerTick s) := by
  cases h : s.halted with
  | true => rw [timerTick_of_halted h]; exact OnlyChanges.refl _ s
  | false => rw [timerTick_of_running h]; exact onlyChanges_timers s _ _

/-- Every event answers a next state, with the font and what says whose turn it is as before. -/
theorem perform_keeps (e : Event) (s : State) : ∃ t, perform e s = .next t ∧ t.font = s.font ∧
    t.schedule = s.schedule ∧ t.agents = s.agents := by
  cases e with
  | step =>
    obtain ⟨t, hstep, hsame⟩ := coreStep_keeps s
    exact ⟨t, hstep, hsame .font (by decide), hsame .schedule (by decide), hsame .agents (by decide)⟩
  | timerTick =>
    have hframe := onlyChanges_timerTick s
    exact ⟨_, rfl, hframe .font (by decide), hframe .schedule (by decide), hframe .agents (by decide)⟩
  | reset rom => exact ⟨_, rfl, resetWith_keeps rom s⟩
  | keySet | frameRead | drawAck => exact ⟨_, rfl, rfl, rfl, rfl⟩

/-! ## Runs -/

theorem run_succ {s t : State} (n : Nat) (h : step s = .next t) :
    Host.Core.run core (n + 1) s = Host.Core.run core n t := by
  have hcore : Host.Core.step core s = .next t := h
  simp only [Host.Core.run, hcore]

theorem eventMoves_endless {s : State} {k : Nat} (hsched : s.schedule = []) (hagents : s.agents = some k) :
    EventMoves (Config.eventAt k) s { s with agents := some (k + 1) } := by
  unfold EventMoves upcoming
  simp only [hsched, hagents]

theorem eventMoves_schedule {s : State} {e : Event} {rest : List Event} (hsched : s.schedule = e :: rest) :
    EventMoves e s { s with schedule := rest } := by
  unfold EventMoves upcoming
  simp only [hsched]

/-- Behind the schedule each step performs the next event of the endless interleaving. -/
theorem run_endless (n k : Nat) (s : State) (hsched : s.schedule = []) (hagents : s.agents = some k) :
    ∃ t, Host.Core.run core n s = .next t ∧
      EventMoves (Config.eventAt (k + n)) t { t with agents := some (k + n + 1) } := by
  induction n generalizing k s with
  | zero => exact ⟨s, rfl, eventMoves_endless hsched hagents⟩
  | succ n ih =>
    obtain ⟨t, hperform, _, htsched, htagents⟩ := perform_keeps (Config.eventAt k) { s with agents := some (k + 1) }
    have hstep : step s = .next t := (eventMoves_endless hsched hagents).step_eq.trans hperform
    obtain ⟨u, hrun, hmoves⟩ := ih (k + 1) t (htsched.trans hsched) htagents
    rw [Nat.add_right_comm, Nat.add_assoc] at hmoves
    exact ⟨u, (run_succ n hstep).trans hrun, hmoves⟩

/-- Settles O4: every event answers and keeps the model's own fields, and the run is an induction over its length. -/
theorem stepAlwaysAnswersNext : Obligations.StepAlwaysAnswersNext := by
  constructor
  · intro s
    have hmoves := eventMoves_upcoming s
    obtain ⟨t, hperform, hfont, _⟩ := perform_keeps (upcoming s).1 (upcoming s).2
    exact ⟨t, hmoves.step_eq.trans hperform, hfont.trans (hmoves.onlyChanges .font (by decide))⟩
  · intro s k n hsched hagents
    exact run_endless n k s hsched hagents

/-! ## Timers -/

theorem countDown_toNat (b : Byte) : (countDown b).toNat = b.toNat - 1 := by
  unfold countDown
  split
  next h => rw [h]; rfl
  next h =>
    have hpos : b.toNat ≠ 0 := fun h0 => h (BitVec.eq_of_toNat_eq h0)
    have hlt : b.toNat < 256 := b.isLt
    rw [BitVec.toNat_sub]
    change (256 - 1 + b.toNat) % 256 = _
    omega

/-- Settles O44: the halted and the running tick. -/
theorem timerTickCountsDown : Obligations.TimerTickCountsDown := by
  intro s s0 hmoves
  rw [hmoves.step_eq]
  obtain ⟨l, a, rfl⟩ := hmoves.keeps
  constructor
  · intro hhalt
    exact congrArg Host.Outcome.next (timerTick_of_halted hhalt)
  · intro hrun
    exact ⟨_, congrArg Host.Outcome.next (timerTick_of_running hrun), countDown_toNat _, countDown_toNat _,
      onlyChanges_timers _ _ _⟩

/-- Settles O45: induction over the number of ticks, each one as O44 says. -/
theorem manyTicksCountDown : Obligations.ManyTicksCountDown := by
  intro n rest s hsched hrun
  induction n generalizing s with
  | zero => exact ⟨s, rfl, rfl, rfl, hsched, OnlyChanges.refl _ s⟩
  | succ n ih =>
    have hmoves := eventMoves_schedule (hsched.trans List.cons_append)
    obtain ⟨_, htick⟩ := timerTickCountsDown s _ hmoves
    obtain ⟨t, hstep, hDT, hST, hframe⟩ := htick hrun
    have htsched : t.schedule = List.replicate n .timerTick ++ rest := hframe .schedule (by decide)
    have hthalted : t.halted = s.halted := hframe .halted (by decide)
    obtain ⟨u, hrunN, huDT, huST, husched, hrest⟩ := ih t htsched (hthalted.trans hrun)
    have hturn := onlyChanges_schedule s (List.replicate n .timerTick ++ rest)
    exact ⟨u, (run_succ n hstep).trans hrunN, by omega, by omega, husched,
      ((hturn.trans hframe).trans hrest).mono (by simp)⟩

theorem coreStep_DT {s t : State} (h : coreStep s = .next t) (hrise : t.DT.toNat > s.DT.toNat) :
    ∃ x, s.halted = false ∧ s.pc.toNat < 0xFFF ∧ s.pc.toNat % 2 = 0 ∧ decode (wordAtPc s) = .instr (.ldDtVx x) := by
  rcases coreStep_inv h with ⟨_, rfl⟩ | ⟨_, _, _, _, rfl⟩ | ⟨hrun, hlt, heven, i, hdecode, hexec⟩
  · exact absurd hrise (Nat.lt_irrefl _)
  · exact absurd hrise (Nat.lt_irrefl _)
  · have hne : t.DT ≠ s.DT := fun he => absurd hrise (by rw [he]; exact Nat.lt_irrefl _)
    obtain ⟨x, rfl⟩ := delayTimer_writer (exec_writer (p := .DT) hexec (by decide) hne)
    exact ⟨x, hrun, hlt, heven, hdecode⟩

theorem timerTick_DT_le (s : State) : (timerTick s).DT.toNat ≤ s.DT.toNat := by
  cases h : s.halted with
  | true => rw [timerTick_of_halted h]
  | false =>
    rw [timerTick_of_running h]
    change (countDown s.DT).toNat ≤ _
    rw [countDown_toNat]
    exact Nat.sub_le _ 1

theorem resetWith_DT (rom : List Byte) (s : State) : (resetWith rom s).DT = 0#8 := by
  unfold resetWith
  split <;> rfl

/-- Settles O46: of the six events the Core's step alone can raise `DT`, and of its instructions Fx15 alone. -/
theorem delayTimerRisesOnlyByFx15 : Obligations.DelayTimerRisesOnlyByFx15 := by
  intro s t hstep hrise
  obtain ⟨e, s0, hmoves⟩ : ∃ e s0, EventMoves e s s0 := ⟨_, _, eventMoves_upcoming s⟩
  have hDT : s0.DT = s.DT := hmoves.onlyChanges .DT (by decide)
  rw [hmoves.step_eq] at hstep
  rw [← hDT] at hrise
  cases e with
  | step =>
    obtain ⟨x, hcore⟩ := coreStep_DT hstep hrise
    obtain ⟨l, a, rfl⟩ := hmoves.keeps
    exact ⟨_, x, hmoves, hcore⟩
  | timerTick =>
    cases hstep
    exact absurd hrise (Nat.not_lt_of_le (timerTick_DT_le s0))
  | reset rom =>
    cases hstep
    rw [resetWith_DT] at hrise
    exact absurd hrise (Nat.not_lt_zero _)
  | keySet | frameRead | drawAck =>
    cases hstep
    exact absurd hrise (Nat.lt_irrefl _)

/-! ## The Presenter (41_display section 2) -/

/-- Settles O48: the state read from differs in whose turn it is, and the acknowledgement is one write. -/
theorem presenterReadsAndAcknowledges : Obligations.PresenterReadsAndAcknowledges := by
  intro s s0
  constructor
  · intro hmoves
    refine ⟨hmoves.step_eq, hmoves.onlyChanges .drawReady (by decide), fun col row _ _ => ?_⟩
    have hfb : s0.fb = s.fb := hmoves.onlyChanges .fb (by decide)
    rw [frameRead, hfb, pixelAt]
  · intro hmoves
    exact ⟨_, hmoves.step_eq, rfl, onlyChanges_drawAck s0⟩

/-! ## The halted core -/

/-- Settles O59: each event but `Reset` touches at most the keypad and the draw-ready flag of a halted core. -/
theorem haltIsStickyUntilReset : Obligations.HaltIsStickyUntilReset := by
  constructor
  · intro s s0 hcore hhalt
    have hhalted0 : s0.halted = s.halted := hcore.onlyChanges .halted (by decide)
    exact hcore.step_eq.trans (coreStep_of_halted (hhalted0.trans hhalt))
  · intro s t hhalt hnoReset hstep
    obtain ⟨e, s0, hmoves⟩ : ∃ e s0, EventMoves e s s0 := ⟨_, _, eventMoves_upcoming s⟩
    have hturn := hmoves.onlyChanges
    have hhalted0 : s0.halted = s.halted := hturn .halted (by decide)
    have hhalt0 : s0.halted = true := hhalted0.trans hhalt
    have hperform : perform e s0 = .next t := hmoves.step_eq.symm.trans hstep
    have hevent : OnlyChanges [.key, .drawReady] s0 t := by
      cases e with
      | step =>
        cases (coreStep_of_halted hhalt0).symm.trans hperform
        exact OnlyChanges.refl _ _
      | timerTick =>
        cases hperform
        rw [timerTick_of_halted hhalt0]
        exact OnlyChanges.refl _ _
      | keySet k b => cases hperform; exact (onlyChanges_keySet k b s0).mono (by simp)
      | frameRead => cases hperform; exact OnlyChanges.refl _ _
      | drawAck => cases hperform; exact (onlyChanges_drawAck s0).mono (by simp)
      | reset rom => exact absurd (congrArg Prod.fst hmoves) (hnoReset rom)
    have hhalted : t.halted = s0.halted := hevent .halted (by decide)
    exact ⟨hhalted.trans hhalt0, (hturn.trans hevent).mono (by simp)⟩

/-! ## Reset (70_reset_and_hazards section 1) -/

theorem resetRegisters_reset : ResetRegisters State.reset :=
  ⟨fun r => Vector.getElem_replicate r.isLt, rfl, rfl, rfl, fun k => Vector.getElem_replicate k.isLt, rfl, rfl,
    fun _ _ => BitVec.getLsbD_zero, fun _ _ _ _ => BitVec.getLsbD_zero, rfl⟩

theorem resetRegisters_initialise (rom : List Byte) (s : State) : ResetRegisters (initialise rom s) :=
  resetRegisters_reset

/-- What an unlisted address reads as above the font (20_memory R70). -/
theorem resetByte_above_font {a : Nat} (h : 80 ≤ a) : resetByte a = 0x00#8 := by
  have hlen : (fontLow ++ fontHigh).length = 80 := rfl
  rw [resetByte, if_neg (Nat.not_lt_zero a)]
  exact List.getD_eq_default _ _ (hlen ▸ h)

/-- The ROM inside its range, the machine's font and zeros outside (70_reset_and_hazards R242). -/
theorem readByte_initialise (rom : List Byte) (s : State) (a : Nat) : readByte (initialise rom s) a =
    if 0x200 ≤ a ∧ a < 0x200 + rom.length then rom.getD (a - 0x200) 0x00#8 else blankByte s.font a := by
  have hlen : s.font.toList.length = 80 := Vector.length_toList
  have hread : readByte (initialise rom s) a =
      if 0 ≤ a ∧ a < 0 + s.font.toList.length then s.font.toList.getD (a - 0) 0#8
      else Memory.read (Memory.ofImage 0x200 rom) a :=
    Memory.read_writeList s.font.toList (Memory.ofImage 0x200 rom) 0 a (by rw [hlen]; decide)
  rw [hread, hlen, Memory.read_ofImage]
  by_cases hfont : a < 80
  · rw [if_pos (by omega), if_neg (by omega), blankByte, dif_pos hfont, Nat.sub_zero,
      List.getD_eq_getElem _ _ (by omega), Vector.getElem_toList]
  · rw [if_neg (by omega), blankByte, dif_neg hfont, resetByte_above_font (by omega)]

theorem resetWith_of_fits {rom : List Byte} (h : rom.length ≤ 3584) (s : State) :
    resetWith rom s = initialise rom s := if_neg (Nat.not_lt_of_le h)

theorem resetWith_of_oversize {rom : List Byte} (h : rom.length > 3584) (s : State) :
    resetWith rom s = { initialise [] s with halted := true, errCode := 1#4 } := if_pos h

/-- Settles O49: the font and the ROM lie apart, so each byte is one of theirs or zero. -/
theorem resetLoadsTheRom : Obligations.ResetLoadsTheRom := by
  intro s s0 rom hmoves hfits
  have hfont : s0.font = s.font := hmoves.onlyChanges .font (by decide)
  refine ⟨initialise rom s0, ?_, resetRegisters_initialise rom s0, ⟨rfl, rfl, rfl, rfl, rfl⟩, hfont, fun a => ?_⟩
  · rw [hmoves.step_eq, perform, resetWith_of_fits hfits]
  · rw [readByte_initialise, hfont]

/-- Settles O50: the rejected ROM leaves the memory of an empty one. -/
theorem oversizeRomIsRejected : Obligations.OversizeRomIsRejected := by
  intro s s0 rom hmoves hover
  have hfont : s0.font = s.font := hmoves.onlyChanges .font (by decide)
  refine ⟨{ initialise [] s0 with halted := true, errCode := 1#4 }, ?_, resetRegisters_initialise [] s0, rfl, rfl, rfl,
    rfl, rfl, hfont, fun a => ?_⟩
  · rw [hmoves.step_eq, perform, resetWith_of_oversize hover]
  · have hempty := readByte_initialise [] s0 a
    rw [if_neg (fun ⟨hle, hlt⟩ => Nat.not_lt_of_le hle hlt), hfont] at hempty
    exact hempty

theorem initialise_reset : initialise [] State.reset = State.reset :=
  (resetWith_of_fits (Nat.zero_le _) State.reset).symm.trans reset_eq_resetWith

/-- Settles O51: the listed memory is what `Reset` with an empty ROM leaves, and reads as the table. -/
theorem resetStateIsAsListed : Obligations.ResetStateIsAsListed := by
  refine ⟨resetRegisters_reset, ⟨rfl, rfl, rfl, rfl, rfl⟩, fun a => ?blank, fun a => rfl⟩
  case blank =>
    have hempty := readByte_initialise [] State.reset a
    rwa [initialise_reset, if_neg (fun ⟨hle, hlt⟩ => Nat.not_lt_of_le hle hlt)] at hempty

end Sys2Proof.Machine
end

section
/-! The machine's invariant (10_state sections 4, 5 and 8): what each kind of event does to the parts it speaks of. -/

namespace Sys2Proof.Machine

/-! ## Memory -/

theorem writeRun_mem (k : Nat) (bytes : List Byte) (s : State) : (writeRun k bytes s).mem = s.mem := by
  obtain ⟨V', hV⟩ := writeRun_keeps bytes k s
  rw [hV]

/-- An instruction changes memory by one run of writes, an empty one in most cases. Reads alone (`SameIn`) would not do
here: the canonical form is a property of the list. -/
theorem exec_writes_run (i : Instr) (s : State) :
    ∃ t, exec i s = .next t ∧ ∃ a bytes, t.mem = Memory.writeList s.mem a bytes := by
  cases i with
  | ldB x =>
    rcases Nat.lt_or_ge 0xFFF (s.I.toNat + 2) with hpast | hin
    · exact ⟨_, exec_ldB_of_past x s hpast, 0, [], rfl⟩
    · exact ⟨_, exec_ldB_of_inRange x s hin, _, _, rfl⟩
  | ldMemVx x =>
    rcases Nat.lt_or_ge 0xFFF (s.I.toNat + x.val) with hpast | hin
    · exact ⟨_, exec_ldMemVx_of_past x s hpast, 0, [], rfl⟩
    · exact ⟨_, exec_ldMemVx_of_inRange x s hin, _, _, rfl⟩
  | ldVxMem x =>
    rcases Nat.lt_or_ge 0xFFF (s.I.toNat + x.val) with hpast | hin
    · exact ⟨_, exec_ldVxMem_of_past x s hpast, 0, [], rfl⟩
    · exact ⟨_, exec_ldVxMem_of_inRange x s hin, 0, [], writeRun_mem 0 _ s⟩
  | drw x y n =>
    by_cases hin : n.toNat = 0 ∨ s.I.toNat + n.toNat ≤ 0x1000
    · exact ⟨_, exec_drw_of_inRange x y n s hin, 0, [], rfl⟩
    · exact ⟨_, exec_drw_of_past x y n s hin, 0, [], rfl⟩
  | call nnn =>
    by_cases hsp : s.sp.val = 47
    · exact ⟨_, exec_call_of_full nnn s hsp, 0, [], rfl⟩
    · exact ⟨_, exec_call_of_room nnn s (by have := sp_lt s; omega), 0, [], rfl⟩
  | ret =>
    by_cases hsp : s.sp.val = 0
    · exact ⟨_, exec_ret_of_empty s hsp, 0, [], rfl⟩
    · obtain ⟨_, hexec⟩ := exec_ret_of_pos s hsp
      exact ⟨_, hexec, 0, [], rfl⟩
  | skp x =>
    rcases Nat.lt_or_ge 15 (readV s x).toNat with hgt | hle
    · exact ⟨_, exec_skp_of_no_key x s hgt, 0, [], rfl⟩
    · exact ⟨_, exec_skp_of_key x s hle, 0, [], rfl⟩
  | sknp x =>
    rcases Nat.lt_or_ge 15 (readV s x).toNat with hgt | hle
    · exact ⟨_, exec_sknp_of_no_key x s hgt, 0, [], rfl⟩
    · exact ⟨_, exec_sknp_of_key x s hle, 0, [], rfl⟩
  | ldVxK x =>
    rcases no_key_or_some_key s with hnone | hsome
    · exact ⟨s, exec_ldVxK_of_none x s hnone, 0, [], rfl⟩
    · obtain ⟨k, _, _, _, hexec⟩ := exec_ldVxK_of_some x s hsome
      exact ⟨_, hexec, 0, [], rfl⟩
  | _ => exact ⟨_, rfl, 0, [], rfl⟩

section

variable {i : Instr} {s t : State}

theorem exec_keeps_canonical (h : exec i s = .next t) (hs : Memory.wf s.mem = true) : Memory.wf t.mem = true := by
  obtain ⟨t', hexec, a, bytes, hmem⟩ := exec_writes_run i s
  cases hexec.symm.trans h
  rw [hmem]
  exact Memory.wf_writeList bytes s.mem a hs

/-! ## Index register, call stack and `pc` -/

theorem advance_writeI_lt (w : Word) (s : State) : (advance (writeI w s)).I.toNat < 0x1000 := by
  rw [advance_I, writeI_toNat]
  exact Nat.mod_lt _ (by decide)

theorem exec_keeps_index (h : exec i s = .next t) (hs : s.I.toNat < 0x1000) : t.I.toNat < 0x1000 := by
  by_cases hsame : t.I = s.I
  · rwa [hsame]
  · rcases index_writer (exec_writer (p := .I) h (by decide) hsame) with ⟨x, nnn, rfl | rfl | rfl⟩
    all_goals
      cases h
      exact advance_writeI_lt _ _

/-- A slot keeps its address or takes the return address; slot 0 is never the top of a push (10_state R31). -/
theorem exec_slot (h : exec i s = .next t) (k : Fin 48) :
    t.stack[k] = s.stack[k] ∨ (k ≠ 0 ∧ t.stack[k] = s.pc + 2) := by
  by_cases hsame : SameIn .stack s t
  · exact .inl (hsame k)
  · obtain ⟨nnn, rfl⟩ := stack_writer (exec_writer h (by decide) hsame)
    by_cases hsp : s.sp.val = 47
    · cases (exec_call_of_full nnn s hsp).symm.trans h
      exact .inl rfl
    · have hlt := sp_lt s
      obtain ⟨t', hexec, _, hslots, _⟩ := callPushesReturnAddress nnn s (by omega)
      cases hexec.symm.trans h
      by_cases htop : k.val = s.sp.val + 1
      · refine .inr ⟨fun hk => ?_, (hslots k).trans (if_pos htop)⟩
        rw [hk] at htop
        exact absurd htop (Nat.succ_ne_zero _).symm
      · exact .inl ((hslots k).trans (if_neg htop))

/-- The five ways `pc` moves (10_state R27). -/
theorem NextPc.cases (h : NextPc i s t) :
    t.pc = s.pc ∨ t.pc = s.pc + 2 ∨ t.pc = s.pc + 4 ∨ t.pc = s.stack[s.sp] ∨ t.pc.toNat ≤ 0xFFF + 0xFF := by
  have hskip : ∀ c : Prop, [Decidable c] → t.pc = (if c then s.pc + 4 else s.pc + 2) →
      t.pc = s.pc + 2 ∨ t.pc = s.pc + 4 := by
    intro c _ hpc
    by_cases hc : c
    · exact .inr (hpc.trans (if_pos hc))
    · exact .inl (hpc.trans (if_neg hc))
  cases i with
  | sys => exact h.elim
  | jp nnn | call nnn =>
    have hn : nnn.toNat < 4096 := nnn.isLt
    have hpc : t.pc.toNat = nnn.toNat := h
    omega
  | jpV0 nnn =>
    have hn : nnn.toNat < 4096 := nnn.isLt
    have hv : (readV s 0).toNat < 256 := (readV s 0).isLt
    have hpc : t.pc.toNat = nnn.toNat + (readV s 0).toNat := h
    omega
  | ret => exact .inr (.inr (.inr (.inl h)))
  | seByte | sneByte | seReg | sneReg | skp | sknp => rcases hskip _ h with hpc | hpc <;> simp [hpc]
  | ldVxK x =>
    obtain ⟨hhold, hgo⟩ := h
    rcases no_key_or_some_key s with hnone | hsome
    · exact .inl (hhold hnone)
    · exact .inr (.inl (hgo hsome))
  | _ => exact .inr (.inl h)

end

section

variable {s : State} (hlt : s.pc.toNat < 0xFFF)

include hlt

theorem pc_add_two_toNat : (s.pc + 2).toNat = s.pc.toNat + 2 := by
  rw [BitVec.toNat_add]
  change (s.pc.toNat + 2) % 65536 = _
  omega

theorem pc_add_four_toNat : (s.pc + 4).toNat = s.pc.toNat + 4 := by
  rw [BitVec.toNat_add]
  change (s.pc.toNat + 4) % 65536 = _
  omega

end

/-! ## The invariant -/

theorem Inv.raise {s : State} (hs : Inv s) (e : ErrorKind) (op addr : Word) : Inv (raise e op addr s) := by
  obtain ⟨hknown, hrecorded⟩ : (errorCode e).toNat ≤ 8 ∧ errorCode e ≠ 0#4 := by cases e <;> decide
  exact ⟨hs.memCanonical, hs.indexTwelveBits, hs.pcBound, hs.slots, hs.slotZero, hknown,
    ⟨fun _ => hrecorded, fun _ => rfl⟩, fun hrun => (by cases hrun)⟩

/-- The error registers of a completing instruction, and so the clauses about them, are as before. -/
theorem Inv.of_completes {i : Instr} {s t : State} (hs : Inv s) (hlt : s.pc.toNat < 0xFFF)
    (heven : s.pc.toNat % 2 = 0) (hexec : exec i s = .next t) (hdone : Completes i s t) : Inv t := by
  have hpc2 := pc_add_two_toNat hlt
  have hpc4 := pc_add_four_toNat hlt
  have hcode : t.errCode = s.errCode := hdone.sameIn (p := .errCode) (by decide)
  have hopcode : t.errOpcode = s.errOpcode := hdone.sameIn (p := .errOpcode) (by decide)
  have hpc : t.errPc = s.errPc := hdone.sameIn (p := .errPc) (by decide)
  have haddr : t.errAddr = s.errAddr := hdone.sameIn (p := .errAddr) (by decide)
  refine ⟨exec_keeps_canonical hexec hs.memCanonical, exec_keeps_index hexec hs.indexTwelveBits, ?pcBound,
    fun k => ?slots, ?slotZero, ?codeKnown, ?haltedIffError, ?noErrorNoRecord⟩
  case pcBound =>
    obtain ⟨hslot, _⟩ := hs.slots s.sp
    rcases hdone.nextPc.cases with hnext | hnext | hnext | hnext | hnext
    · rw [hnext]
      exact hs.pcBound
    · rw [hnext]
      omega
    · rw [hnext]
      omega
    · rw [hnext]
      exact Nat.le_trans hslot (by decide)
    · exact hnext
  case slots =>
    rcases exec_slot hexec k with hslot | ⟨_, hslot⟩
    · rw [hslot]
      exact hs.slots k
    · rw [hslot]
      omega
  case slotZero =>
    rcases exec_slot hexec 0 with hslot | ⟨hne, _⟩
    · exact hslot.trans hs.slotZero
    · exact absurd rfl hne
  case codeKnown =>
    rw [hcode]
    exact hs.codeKnown
  case haltedIffError =>
    rw [hcode, hdone.halted_eq]
    exact hs.haltedIffError
  case noErrorNoRecord =>
    rw [hopcode, hpc, haddr, hdone.halted_eq]
    exact hs.noErrorNoRecord

theorem coreStep_inv_preserved {s t : State} (hs : Inv s) (h : coreStep s = .next t) : Inv t := by
  rcases coreStep_inv h with ⟨_, rfl⟩ | ⟨_, e, op, addr, rfl⟩ | ⟨_, hlt, heven, i, _, hexec⟩
  · exact hs
  · exact hs.raise e op addr
  · rcases exec_inv hexec with ⟨e, addr, _, rfl⟩ | hdone
    · exact hs.raise e _ addr
    · exact hs.of_completes hlt heven hexec hdone

/-- The parts the invariant does not speak of. -/
theorem Inv.of_other_parts {s : State} (hs : Inv s) (dt st : Byte) (key : BitVec 16) (ready : Bool) (l : List Event)
    (a : Option Nat) :
    Inv { s with DT := dt, ST := st, key := key, drawReady := ready, schedule := l, agents := a } :=
  ⟨hs.memCanonical, hs.indexTwelveBits, hs.pcBound, hs.slots, hs.slotZero, hs.codeKnown, hs.haltedIffError,
    hs.noErrorNoRecord⟩

theorem Inv.timerTick {s : State} (hs : Inv s) : Inv (timerTick s) := by
  cases h : s.halted with
  | true => rwa [timerTick_of_halted h]
  | false =>
    rw [timerTick_of_running h]
    exact hs.of_other_parts _ _ s.key s.drawReady s.schedule s.agents

theorem initialise_canonical {rom : List Byte} (h : rom.length ≤ 3584) (s : State) :
    Memory.wf (initialise rom s).mem = true :=
  Memory.wf_writeList _ _ _ (Memory.wf_ofImage _ rom (show 0x200 + rom.length ≤ 4096 by omega))

theorem reset_slot (k : Fin 48) : State.reset.stack[k] = 0#16 := Vector.getElem_replicate k.isLt

theorem reset_slots (k : Fin 48) : State.reset.stack[k].toNat ≤ 0x1000 ∧ State.reset.stack[k].toNat % 2 = 0 := by
  rw [reset_slot]
  decide

theorem Inv.resetWith (rom : List Byte) (s : State) : Inv (resetWith rom s) := by
  rcases Nat.lt_or_ge 3584 rom.length with hover | hfits
  · rw [resetWith_of_oversize hover]
    exact ⟨initialise_canonical (Nat.zero_le _) s, (by decide : 0 < 0x1000), (by decide : 0x200 ≤ 0x10FE), reset_slots,
      reset_slot 0, (by decide : 1 ≤ 8), ⟨fun _ => (by decide : 1#4 ≠ 0#4), fun _ => rfl⟩, fun _ => ⟨rfl, rfl, rfl⟩⟩
  · rw [resetWith_of_fits hfits]
    exact ⟨initialise_canonical hfits s, (by decide : 0 < 0x1000), (by decide : 0x200 ≤ 0x10FE), reset_slots,
      reset_slot 0, (by decide : 0 ≤ 8), ⟨fun h => (by cases h), fun h => absurd rfl h⟩, fun _ => ⟨rfl, rfl, rfl⟩⟩

theorem perform_inv_preserved {e : Event} {s t : State} (hs : Inv s) (h : perform e s = .next t) : Inv t := by
  cases e with
  | step => exact coreStep_inv_preserved hs h
  | timerTick => cases h; exact hs.timerTick
  | keySet k b => cases h; exact hs.of_other_parts s.DT s.ST _ s.drawReady s.schedule s.agents
  | frameRead => cases h; exact hs
  | drawAck => cases h; exact hs.of_other_parts s.DT s.ST s.key _ s.schedule s.agents
  | reset rom => cases h; exact Inv.resetWith rom s

/-- Settles O53: the event is performed on a state that differs in whose turn it is, and every event keeps each
clause. -/
theorem everyStepKeepsTheInvariant : Obligations.EveryStepKeepsTheInvariant := by
  intro s t hs hstep
  have hmoves := eventMoves_upcoming s
  rw [hmoves.step_eq] at hstep
  obtain ⟨l, a, hs0⟩ := hmoves.keeps
  rw [hs0] at hstep
  exact perform_inv_preserved (hs.of_other_parts s.DT s.ST s.key s.drawReady l a) hstep

/-- Settles O54: the state after reset is what `Reset` leaves. -/
theorem resetMeetsTheInvariant : Obligations.ResetMeetsTheInvariant := by
  have h := Inv.resetWith [] State.reset
  rwa [reset_eq_resetWith] at h

end Sys2Proof.Machine
end
